-- ==== Sys2Proof/Word.lean ====
section
/-!
DEFINITION. The machine's words: PC operands, command words and the statistics counters (spec/00_scope.md R9, R11).
-/

namespace Sys2Proof

/-- A PC operand: `AW = 32` bits, unsigned (R9, R29). -/
abbrev Pc := BitVec 32

/-- A command word: `CWW = 68` bits, bit 67 the most significant (R9, R81). -/
abbrev CmdWord := BitVec 68

/-- A statistics counter: `SW = 64` bits, so that adding 1 wraps modulo 2^64 (R9, R155, R156). -/
abbrev Count := BitVec 64

end Sys2Proof
end

