-- ==== Sys2Proof/Config.lean ====
section
/-!
DEFINITION. The configuration `(m, p, n)` of one BPE instance, constant for its life, and the sizes derived from it
(spec/00_scope.md R7 to R10). Every definition of the machine takes the configuration; none has a default.
-/

namespace Sys2Proof

/-- A well-formed configuration, carrying the proofs of R8 (a) and (b), as R171 allows: "a precondition of (or a proof
carried by) the configuration type". R8 (c) is `m ≥ 0`, which every natural number meets; R8 (d) depends on the
platform's `LOG2_ENTRIES_MAX` and is checked by `RawCfg.build` (WellFormed.lean). -/
structure Cfg where
  /-- GHR width in bits; `2^m` counters per table. -/
  m : Nat
  /-- PC bits that select a table; `2^p` tables. -/
  p : Nat
  /-- Width of a saturating counter; its range is `0` to `2^n - 1`. -/
  n : Nat
  n_pos : 1 ≤ n
  p_le : p ≤ 30
deriving DecidableEq, Repr

/-- Three numbers offered to the construction of an instance, before any check (R7, R171). -/
structure RawCfg where
  m : Nat
  p : Nat
  n : Nat
deriving DecidableEq, Repr

/-- `NT`, the number of tables (R10). -/
def Cfg.numTables (c : Cfg) : Nat := 2 ^ c.p

/-- `NC`, the counters of one table (R10). -/
def Cfg.countersPerTable (c : Cfg) : Nat := 2 ^ c.m

/-- `NE`, the entries of the PHT SRAM (R10, R50). -/
def Cfg.numEntries (c : Cfg) : Nat := 2 ^ (c.p + c.m)

/-- Total storage in bits (R10). -/
def Cfg.storageBits (c : Cfg) : Nat := c.n * 2 ^ (c.p + c.m)

/-- `CMAX`, the largest counter value (R10). -/
def Cfg.counterMax (c : Cfg) : Nat := 2 ^ c.n - 1

/-- `GMASK`, the GHR mask (R10). -/
def Cfg.historyMask (c : Cfg) : Nat := 2 ^ c.m - 1

/-- `IMASK`, the index mask (R10). -/
def Cfg.indexMask (c : Cfg) : Nat := 2 ^ c.p - 1

end Sys2Proof
end

