-- ==== Sys2Proof/Syntax.lean ====
section
/-!
DEFINITION. The commands: `Instr`, one constructor per row of spec/opcode_table.json, and the host-side spellings of a
command word, the assembler line of R94 and the trace event of R95 (spec/30_encoding.md).
-/

namespace Sys2Proof

/-- A command, with the operands its row of the opcode table names (R80, R83). Ignored fields are no operands (R86). -/
inductive Instr where
  /-- `EVAL.BCN pc, npc`: evaluate a conditional-branch event (R150). -/
  | evalBcn (pc npc : Pc)
  /-- `EVAL.SKIP`: an event of any other kind; its fields are ignored (R151). -/
  | evalSkip
  /-- `PREDICT pc` (R130). -/
  | predict (pc : Pc)
  /-- `UPDATE pc, t`, `t = true` for taken (R140). -/
  | update (pc : Pc) (t : Bool)
  /-- The reserved op, illegal (R84). -/
  | reserved
deriving DecidableEq, Repr

/-- The mnemonic of the instruction's row in spec/opcode_table.json. -/
def Instr.mnemonic : Instr → String
  | .evalBcn _ _ => "EVAL.BCN"
  | .evalSkip => "EVAL.SKIP"
  | .predict _ => "PREDICT"
  | .update _ _ => "UPDATE"
  | .reserved => "RESERVED"

/-- A line of the assembler of R94. Its numbers are written without a width; `AsmLine.wf` says which fit the fields.
There is no line for the reserved op (R174). -/
inductive AsmLine where
  | evalBcn (pc npc : Nat)
  | evalSkip (pc npc : Nat)
  | predict (pc : Nat)
  | updateT (pc : Nat)
  | updateN (pc : Nat)
deriving DecidableEq, Repr

/-- A parsed trace line `<operation-code> <current-PC> <next-PC>` (R95); parsing the text is outside the block (R6). -/
structure TraceEvent where
  code : String
  pc : Nat
  npc : Nat
deriving DecidableEq, Repr

/-- The line a trace event assembles to: `BCN` is the conditional-branch code, every other code maps to the skip form
(R87, R95). -/
def TraceEvent.toAsm (e : TraceEvent) : AsmLine :=
  if e.code = "BCN" then .evalBcn e.pc e.npc else .evalSkip e.pc e.npc

end Sys2Proof
end

