-- ==== Sys2Proof/WellFormed.lean ====
section
/-!
DEFINITION. What is well-formed: a configuration (spec/00_scope.md R8, spec/60_exceptions.md R171), an assembler line
(spec/30_encoding.md R94, R95) and a command.
-/

namespace Sys2Proof

/-- Why the construction of an instance fails (R171); each is a refusal to build, never a run-time fault. -/
inductive ConfigError where
  /-- R8 (a): "`n == 0` making the counter width undefined". -/
  | counterWidthZero
  /-- R8 (b): `p` exceeds the address width minus 2. -/
  | indexTooWide
  /-- R8 (d): `p + m` exceeds the platform's `LOG2_ENTRIES_MAX`. -/
  | storageTooLarge
deriving DecidableEq, Repr

/-- R8 (a). -/
def RawCfg.counterWidthOk (r : RawCfg) : Bool := decide (1 ≤ r.n)

/-- R8 (b): `p ≤ AW - 2 = 30`. -/
def RawCfg.indexWidthOk (r : RawCfg) : Bool := decide (r.p ≤ 30)

/-- R8 (d): `limit` is the open platform parameter `LOG2_ENTRIES_MAX`, `none` for infinity. -/
def RawCfg.storageOk (limit : Option Nat) (r : RawCfg) : Bool :=
  match limit with
  | none => true
  | some k => decide (r.p + r.m ≤ k)

/-- R8: a configuration is well-formed when all its clauses hold ((c), `m ≥ 0`, always does). -/
def RawCfg.wf (limit : Option Nat) (r : RawCfg) : Bool :=
  r.counterWidthOk && r.indexWidthOk && r.storageOk limit

/-- Construction (R171): a configuration that is not well-formed has no instance. -/
def RawCfg.build (limit : Option Nat) (r : RawCfg) : Except ConfigError Cfg :=
  if hn : 1 ≤ r.n then
    if hp : r.p ≤ 30 then
      if r.storageOk limit then .ok ⟨r.m, r.p, r.n, hn, hp⟩ else .error .storageTooLarge
    else .error .indexTooWide
  else .error .counterWidthZero

/-- A number that fits a 32-bit PC field; a larger one must not reach the field (R95). -/
def fitsPc (k : Nat) : Bool := decide (k < 2 ^ 32)

/-- An assembler line all of whose numbers fit their fields (R94, R95). -/
def AsmLine.wf : AsmLine → Bool
  | .evalBcn pc npc => fitsPc pc && fitsPc npc
  | .evalSkip pc npc => fitsPc pc && fitsPc npc
  | .predict pc => fitsPc pc
  | .updateT pc => fitsPc pc
  | .updateN pc => fitsPc pc

/-- A command is well-formed whatever its operands: each operand's type is exactly its field (R81, R82), and no value of
a field is refused (R58, R86). The reserved op is a decodable command whose effect is the abort (R84). -/
def Instr.wf : Instr → Bool
  | .evalBcn _ _ => true
  | .evalSkip => true
  | .predict _ => true
  | .update _ _ => true
  | .reserved => true

end Sys2Proof
end

