-- ==== Sys2Proof/Decode.lean ====
section
/-!
DEFINITION. The command word: its fields, the decoder, the encoder, the assembler and the opcode table
(spec/30_encoding.md R81 to R88, R94, R95; spec/opcode_table.json).
-/

namespace Sys2Proof

/-- Bits 67:66, the operation (R81). -/
def CmdWord.op (w : CmdWord) : BitVec 2 := w.extractLsb' 66 2

/-- Bit 65, the kind bit, read by EVAL only (R81). -/
def CmdWord.kind (w : CmdWord) : Bool := w.getLsbD 65

/-- Bit 64, the taken bit, read by UPDATE only (R81). -/
def CmdWord.taken (w : CmdWord) : Bool := w.getLsbD 64

/-- Bits 63:32, the current PC (R81, R82). -/
def CmdWord.pc (w : CmdWord) : Pc := w.extractLsb' 32 32

/-- Bits 31:0, the next PC (R81, R82). -/
def CmdWord.npc (w : CmdWord) : Pc := w.extractLsb' 0 32

/-- Decoding, total over all 2^68 words; it looks at `op` and, under op 0, the kind bit (R83). -/
def decode (w : CmdWord) : Instr :=
  if CmdWord.op w = 0#2 then
    if CmdWord.kind w then .evalBcn (CmdWord.pc w) (CmdWord.npc w) else .evalSkip
  else if CmdWord.op w = 1#2 then .predict (CmdWord.pc w)
  else if CmdWord.op w = 2#2 then .update (CmdWord.pc w) (CmdWord.taken w)
  else .reserved

/-- The word with the given fields, in R81's order from bit 67 down. -/
def packWord (op : BitVec 2) (kind taken : Bool) (pc npc : Pc) : CmdWord :=
  op ++ BitVec.ofBool kind ++ BitVec.ofBool taken ++ pc ++ npc

/-- The word of a command: the fields it reads as R81 places them, ignored fields 0 (R86, R94). -/
def encode : Instr → CmdWord
  | .evalBcn pc npc => packWord 0#2 true false pc npc
  | .evalSkip => packWord 0#2 false false 0#32 0#32
  | .predict pc => packWord 1#2 false false pc 0#32
  | .update pc t => packWord 2#2 false t pc 0#32
  | .reserved => packWord 3#2 false false 0#32 0#32

/-- The command word of an assembler line; none where a number does not fit its field. Unnamed fields assemble to 0, and
the skip form keeps the PCs it names although no command reads them (R94, R95). -/
def AsmLine.assemble (l : AsmLine) : Option CmdWord :=
  if l.wf then
    match l with
    | .evalBcn pc npc => some (packWord 0#2 true false (BitVec.ofNat 32 pc) (BitVec.ofNat 32 npc))
    | .evalSkip pc npc => some (packWord 0#2 false false (BitVec.ofNat 32 pc) (BitVec.ofNat 32 npc))
    | .predict pc => some (packWord 1#2 false false (BitVec.ofNat 32 pc) 0#32)
    | .updateT pc => some (packWord 2#2 false true (BitVec.ofNat 32 pc) 0#32)
    | .updateN pc => some (packWord 2#2 false false (BitVec.ofNat 32 pc) 0#32)
  else none

/-- The command an assembler line stands for (R94). -/
def AsmLine.instr : AsmLine → Instr
  | .evalBcn pc npc => .evalBcn (BitVec.ofNat 32 pc) (BitVec.ofNat 32 npc)
  | .evalSkip _ _ => .evalSkip
  | .predict pc => .predict (BitVec.ofNat 32 pc)
  | .updateT pc => .update (BitVec.ofNat 32 pc) true
  | .updateN pc => .update (BitVec.ofNat 32 pc) false

/-- One row of spec/opcode_table.json: a word `w` is of the row when `w &&& mask = pattern`. -/
structure OpcodeRow where
  mnemonic : String
  mask : CmdWord
  pattern : CmdWord
deriving DecidableEq, Repr

/-- The match and mask pairs of R83, in the table's order. -/
def opcodeTable : List OpcodeRow :=
  [⟨"EVAL.BCN", 0xE0000000000000000#68, 0x20000000000000000#68⟩,
   ⟨"EVAL.SKIP", 0xE0000000000000000#68, 0x00000000000000000#68⟩,
   ⟨"PREDICT", 0xC0000000000000000#68, 0x40000000000000000#68⟩,
   ⟨"UPDATE", 0xC0000000000000000#68, 0x80000000000000000#68⟩,
   ⟨"RESERVED", 0xC0000000000000000#68, 0xC0000000000000000#68⟩]

/-- Whether a word is of a row. -/
def OpcodeRow.covers (r : OpcodeRow) (w : CmdWord) : Bool := w &&& r.mask == r.pattern

/-- The number given as an instruction of `nbits` bits: bits from `nbits` up are 0. -/
def tableWord (nbits w : Nat) : Nat := w % 2 ^ nbits

/-- What the decoder reads from an instruction whose bits are `w`, bit 0 least significant: the command channel carries
one whole 68-bit word and no bytes (R57, R88), so a number that needs more bits is no command word. -/
def decodeTableWord (nbits w : Nat) : Option Instr :=
  if tableWord nbits w < 2 ^ 68 then some (decode (BitVec.ofNat 68 (tableWord nbits w))) else none

end Sys2Proof
end

