-- ==== Sys2Proof/Machine/Build.lean ====
section
/-!
DEFINITION. The configuration of the one instance whose reset state is `State.reset`.
-/

namespace Sys2Proof.Machine

/-- DESIGN CHOICE (unsafe, log entry 1): the spec gives m, p and n no default (R7); this is the configuration of the
source's own scenario (spec/95_test_vectors.md S7). Every other definition takes the configuration from the state, so no
statement about a state rests on these three numbers. -/
def instanceCfg : Cfg := ⟨1, 1, 2, by decide, by decide⟩

end Sys2Proof.Machine
end

