-- ==== Sys2Proof/Machine/State.lean ====
section
/-!
DEFINITION. The state of the engine (spec/10_state.md R20 to R37), the host's input and the response list
(spec/30_encoding.md R90 to R93), the reasons a step can stop, and the state after reset (R34).
-/

namespace Sys2Proof.Machine

/-- The PHT SRAM with n-bit entries: (entry address, entry) pairs; an unlisted address holds the reset value 0 (R34,
R52). `Memory.wf` (Ops.lean) is its one canonical form. -/
abbrev Memory (n : Nat) := List (Nat × BitVec n)

/-- One response, the record of R90; `p` is the width of the `idx` field. -/
structure Rsp (p : Nat) where
  op : BitVec 2
  skip : Bool
  idx : BitVec p
  pred : Bool
  taken : Bool
  mis : Bool
deriving DecidableEq, Repr

/-- What the host does at one step (R91, R93, R185). Which clock edges lie between two events is not modelled (R210). -/
inductive HostEvent where
  /-- `cmd_valid = 0`, `rst = 0`: nothing is offered (R93). -/
  | idle
  /-- `cmd_valid = 1`, `rst = 0`: the host offers a word until it is accepted (R93, R185). -/
  | command (w : CmdWord)
  /-- `rst = 1` at a rising edge; a word offered at that edge is not accepted (R179, R200, R202). -/
  | reset (offered : Option CmdWord)
deriving DecidableEq, Repr

/-- The whole state. The registers have exactly the widths of R37, so their range invariants (R22, R24) hold by
construction, as in the hardware. -/
structure State where
  /-- `cfg_m`, `cfg_p`, `cfg_n` (SR4 to SR6), hard-wired: no step changes them (R7, R30). -/
  cfg : Cfg
  /-- GHR, m bits; bit 0 is the most recent outcome (R21). -/
  ghr : BitVec cfg.m
  /-- The PHT, `2^(p+m)` entries of n bits (R23, R50). -/
  mem : Memory cfg.n
  /-- READS, SR0 (R25). -/
  reads : Count
  /-- MISP, SR1 (R26). -/
  misp : Count
  /-- FAULT, SR2 (R27). -/
  fault : Bool
  /-- `fault_cause`, SR3 (R30, R178). -/
  faultCause : BitVec 2
  /-- The model's output: the responses since the last reset, in acceptance order (R93; log entry 3). -/
  rsps : List (Rsp cfg.p)
  /-- The model's input: what the host will do, first event first (R93; log entry 2). -/
  input : List HostEvent
deriving DecidableEq, Repr

/-- Why the machine stops. -/
inductive Fault where
  /-- Raised by the meaning of every command while FAULT is 1: `cmd_ready` is 0 until reset, the word is never accepted,
  and the state has no successor under any command (R177; spec/93_implementation_defined.md U16, `stuck`). Safe: the
  spec gives no later state. -/
  | notAccepted
deriving DecidableEq, Repr

/-- Why an instruction has no meaning. -/
inductive Refusal where
  /-- Raised by `exec` for an instruction that is not modelled; no arm does. Safe: nothing can be proved of such a run. -/
  | notModelled (mnemonic : String)
deriving DecidableEq, Repr

/-- The state after reset of an instance with configuration `c`: every entry 0, GHR 0, READS 0, MISP 0, FAULT 0,
`fault_cause` 0 (R34, R37), no response yet and nothing offered (R203). -/
def State.resetOf (c : Cfg) : State where
  cfg := c
  ghr := 0#c.m
  mem := []
  reads := 0#64
  misp := 0#64
  fault := false
  faultCause := 0#2
  rsps := []
  input := []

/-- The state after reset of the instance named in Build.lean (log entry 1). -/
def State.reset : State := State.resetOf instanceCfg

end Sys2Proof.Machine
end

