-- ==== Sys2Proof/Machine/Flags.lean ====
section
/-!
DEFINITION. The bits and counts a command computes: prediction bit, saturating update, history shift, misprediction
(spec/40_datapath_functions.md R112 to R114; spec/43_eval_and_statistics.md R150, R155, R156).
-/

namespace Sys2Proof.Machine

/-- The prediction of an n-bit counter: its top bit, bit `n - 1` (R112). -/
def predBit (c : Cfg) (ctr : BitVec c.n) : Bool := ctr.getLsbD (c.n - 1)

/-- One clamped step of a saturating counter, up if taken, else down (R113). -/
def satUpdate (n : Nat) (ctr : BitVec n) (t : Bool) : BitVec n :=
  if t then (if ctr = BitVec.allOnes n then ctr else ctr + 1#n)
  else (if ctr = 0#n then 0#n else ctr - 1#n)

/-- GHR's next value: the outcome enters at bit 0, the top bit is lost (R114). -/
def ghrShift (m : Nat) (g : BitVec m) (t : Bool) : BitVec m := (g <<< 1) ||| (BitVec.ofBool t).setWidth m

/-- Whether a prediction missed the outcome: the negation of `correct = (pr == tk)` (R150 steps 4 and 7). -/
def mispredicted (pr tk : Bool) : Bool := pr != tk

/-- A counter after an event: one more, modulo 2^64, if the event counts (R155, R156). -/
def bump (k : Count) (counts : Bool) : Count := if counts then k + 1#64 else k

end Sys2Proof.Machine
end

