-- ==== Sys2Proof/Machine/Operands.lean ====
section
/-!
DEFINITION. What a command makes of its PC operands: the table index, the inferred outcome and the entry address
(spec/40_datapath_functions.md R110, R111; spec/20_memory.md R51).
-/

namespace Sys2Proof.Machine

/-- The PC-to-PHT index hash `pc[p+1:2]`: a bit selection, nothing else (R82, R110). -/
def idx (c : Cfg) (pc : Pc) : BitVec c.p := pc.extractLsb' 2 c.p

/-- Outcome inference: not taken exactly when the next PC is the current PC plus `ISZ = 4` modulo 2^32, all 32 bits
compared (R111; the modulus is the spec's decision D10). -/
def inferTaken (pc npc : Pc) : Bool := npc != pc + 4#32

/-- The entry address `{i, g}`, table index high and row low (R51). -/
def entryAddr (c : Cfg) (i : BitVec c.p) (g : BitVec c.m) : BitVec (c.p + c.m) := i ++ g

/-- `EA(pc)`: the entry a command with current PC `pc` uses, with GHR as it stands before the command (R51). -/
def entryOf (s : State) (pc : Pc) : BitVec (s.cfg.p + s.cfg.m) := entryAddr s.cfg (idx s.cfg pc) s.ghr

end Sys2Proof.Machine
end

