-- ==== Sys2Proof/Machine/Ops.lean ====
section
/-!
DEFINITION. The operations the commands share: the PHT ports (spec/20_memory.md R52, R53), accepting a command, the
response (spec/30_encoding.md R90), the update body (spec/42_update.md R141), the statistics, the fatal abort
(spec/60_exceptions.md R176), reset (spec/70_reset_and_hazards.md R200) and taking the host's next event.
-/

namespace Sys2Proof.Machine

/-- `PhtRead`: the value last written at `a`, the reset value 0 if none has been (R52). -/
def Memory.read {n : Nat} : Memory n → Nat → BitVec n
  | [], _ => 0#n
  | e :: rest, a => if e.1 = a then e.2 else Memory.read rest a

/-- `PhtWrite`: entry `a` becomes `v`, no other entry changes (R53). It keeps the canonical form: writing 0, what an
unlisted address reads as, removes the entry. -/
def Memory.write {n : Nat} : Memory n → Nat → BitVec n → Memory n
  | [], a, v => if v = 0#n then [] else [(a, v)]
  | e :: rest, a, v =>
    if a < e.1 then (if v = 0#n then e :: rest else (a, v) :: e :: rest)
    else if e.1 = a then (if v = 0#n then rest else (a, v) :: rest)
    else e :: Memory.write rest a v

/-- The canonical form of the PHT with `size` entries: addresses strictly rising and in range, no entry 0. -/
abbrev Memory.wf {n : Nat} (size : Nat) (mem : Memory n) : Prop :=
  mem.Pairwise (fun d e => d.1 < e.1) ∧ ∀ e ∈ mem, e.1 < size ∧ e.2 ≠ 0#n

/-- Port R: the entry at entry address `a` (R52, R56). -/
abbrev State.phtRead (s : State) (a : BitVec (s.cfg.p + s.cfg.m)) : BitVec s.cfg.n := s.mem.read a.toNat

/-- Port W: the entry at entry address `a` becomes `v` (R53, R56). -/
abbrev State.phtWrite (s : State) (a : BitVec (s.cfg.p + s.cfg.m)) (v : BitVec s.cfg.n) : State :=
  { s with mem := s.mem.write a.toNat v }

/-- The counter a command with current PC `pc` uses (R51, R52). -/
def State.counterAt (s : State) (pc : Pc) : BitVec s.cfg.n := s.phtRead (entryOf s pc)

/-- The prediction for `pc` in state `s` (R130, R132). -/
def State.prediction (s : State) (pc : Pc) : Bool := predBit s.cfg (s.counterAt pc)

/-- A command is accepted only while FAULT is 0; then the machine goes to `t` (R27, R177). -/
def accept (s t : State) : Host.Outcome State Fault Refusal :=
  if s.fault then .fault .notAccepted else .next t

/-- The response `r` is returned, after all earlier ones (R90, R93). -/
abbrev respond (s : State) (r : Rsp s.cfg.p) : State := { s with rsps := s.rsps ++ [r] }

/-- The update body `do_update(i, t)`: the counter at row GHR of table `i` moves one clamped step, then GHR shifts; the
row is the GHR of before the shift (R141, R207). -/
abbrev doUpdate (s : State) (i : BitVec s.cfg.p) (t : Bool) : State :=
  let a := entryAddr s.cfg i s.ghr
  { s.phtWrite a (satUpdate s.cfg.n (s.phtRead a) t) with ghr := ghrShift s.cfg.m s.ghr t }

/-- READS counts the event, MISP counts it if it was mispredicted (R155, R156). -/
abbrev countEvent (s : State) (mis : Bool) : State :=
  { s with reads := s.reads + 1#64, misp := bump s.misp mis }

/-- The causes of the fatal abort (R170). -/
inductive AbortCause where
  /-- Code 1: a word with `op == 3` was accepted (R174). -/
  | illegalCommand
  /-- Code 2: an index or GHR out of bounds (R175). The widths of `State` rule it out, so nothing raises it. -/
  | invariantViolation
deriving DecidableEq, Repr

/-- The code `fault_cause` shows (R170, R178). -/
def AbortCause.code : AbortCause → BitVec 2
  | .illegalCommand => 1#2
  | .invariantViolation => 2#2

/-- `raise Abort(cause)`, the only trap: FAULT and `fault_cause` are set, nothing else changes, no response is produced
(R176). There is no return from it; reset is the way out (R177). -/
abbrev raiseAbort (s : State) (cause : AbortCause) : State :=
  { s with fault := true, faultCause := cause.code }

/-- A rising edge with `rst = 1`: all state of R34 at its reset value, also during an abort; the configuration stays
(R200, R202). Response numbering restarts, so the response list is empty again (R202; log entry 3). -/
abbrev applyReset (s : State) : State := { State.resetOf s.cfg with input := s.input }

/-- `cmd_ready` as the architecture shows it: 0 for ever once FAULT is 1, otherwise raised after finitely many cycles
(R93, R177, R211). -/
def State.cmdReady (s : State) : Bool := !s.fault

/-- The host's next event and the state past it; none when the host does nothing more (R93, R185). -/
def takeEvent (s : State) : Option (HostEvent × State) :=
  match s.input with
  | [] => none
  | e :: rest => some (e, { s with input := rest })

/-- `s` with the 68-bit command word `w` as what the host offers next (R93). -/
abbrev State.offer (s : State) (w : CmdWord) : State := { s with input := .command w :: s.input }

end Sys2Proof.Machine
end

