-- ==== Sys2Proof/Machine/Eval.lean ====
section
/-!
DEFINITION. The two forms of the EVAL command (spec/43_eval_and_statistics.md).
-/

namespace Sys2Proof.Machine

/-- `EVAL.BCN pc, npc`: infer the outcome, predict and compare on the state before the command, then update, count and
respond (R150, R152). -/
def execEvalBcn (pc npc : Pc) (s : State) : Host.Outcome State Fault Refusal :=
  let tk := inferTaken pc npc
  let pr := s.prediction pc
  let mis := mispredicted pr tk
  accept s (respond (countEvent (doUpdate s (idx s.cfg pc) tk) mis)
    { op := 0#2, skip := false, idx := idx s.cfg pc, pred := pr, taken := tk, mis := mis })

/-- `EVAL.SKIP`: no prediction, no statistics, no state change; only the response (R151). -/
def execEvalSkip (s : State) : Host.Outcome State Fault Refusal :=
  accept s (respond s
    { op := 0#2, skip := true, idx := 0#s.cfg.p, pred := false, taken := false, mis := false })

end Sys2Proof.Machine
end

