-- ==== Sys2Proof/Machine/Predict.lean ====
section
/-!
DEFINITION. The PREDICT command (spec/41_predict.md).
-/

namespace Sys2Proof.Machine

/-- `PREDICT pc`: the top bit of the counter at table `idx(pc)`, row GHR; no state changes (R130, R131). -/
def execPredict (pc : Pc) (s : State) : Host.Outcome State Fault Refusal :=
  accept s (respond s
    { op := 1#2, skip := false, idx := idx s.cfg pc, pred := s.prediction pc, taken := false, mis := false })

end Sys2Proof.Machine
end

