-- ==== Sys2Proof/Machine/Reserved.lean ====
section
/-!
DEFINITION. The reserved op (spec/30_encoding.md R84; spec/60_exceptions.md R174).
-/

namespace Sys2Proof.Machine

/-- `op == 3`: the fatal abort with cause IllegalCommand, whatever the other fields hold (R84, R86, R174, R176). -/
def execReserved (s : State) : Host.Outcome State Fault Refusal :=
  accept s (raiseAbort s .illegalCommand)

end Sys2Proof.Machine
end

