-- ==== Sys2Proof/Machine/Update.lean ====
section
/-!
DEFINITION. The UPDATE command (spec/42_update.md).
-/

namespace Sys2Proof.Machine

/-- `UPDATE pc, t`: the update body at `idx(pc)` with outcome `t`; the statistics stay (R140, R141). -/
def execUpdate (pc : Pc) (t : Bool) (s : State) : Host.Outcome State Fault Refusal :=
  accept s (respond (doUpdate s (idx s.cfg pc) t)
    { op := 2#2, skip := false, idx := idx s.cfg pc, pred := false, taken := t, mis := false })

end Sys2Proof.Machine
end

