-- ==== Sys2Proof/Machine/Dispatch.lean ====
section
/-!
DEFINITION. One command: each arm is the one call of that command's meaning.
-/

namespace Sys2Proof.Machine

def exec (i : Instr) (s : State) : Host.Outcome State Fault Refusal :=
  match i with
  | .evalBcn pc npc => Sys2Proof.Machine.execEvalBcn pc npc s
  | .evalSkip => Sys2Proof.Machine.execEvalSkip s
  | .predict pc => Sys2Proof.Machine.execPredict pc s
  | .update pc t => Sys2Proof.Machine.execUpdate pc t s
  | .reserved => Sys2Proof.Machine.execReserved s

end Sys2Proof.Machine
end

