-- ==== Sys2Proof/Machine/Step.lean ====
section
/-!
DEFINITION. One step: the host's next event (spec/30_encoding.md R93; spec/20_memory.md R60; spec/70_reset_and_hazards.md
R200).
-/

namespace Sys2Proof.Machine

/-- The host's next event takes effect: a command word is decoded and run, a reset edge resets, and while nothing is
offered nothing changes (R93, R187). -/
def step (s : State) : Host.Outcome State Fault Refusal :=
  match takeEvent s with
  | none => .next s
  | some (.idle, s') => .next s'
  | some (.command w, s') => exec (decode w) s'
  | some (.reset _, s') => .next (applyReset s')

/-- `s` with the word of `nbits` bits `w` offered next on the command channel (R93; log entry 2). -/
def State.withFetchWord (s : State) (nbits w : Nat) : State :=
  s.offer (BitVec.ofNat 68 (tableWord nbits w))

end Sys2Proof.Machine
end

