-- ==== Sys2Proof/Machine/Ports.lean ====
section
/-!
DEFINITION. What the host sees beside the responses: the status ports (spec/10_state.md R30; spec/30_encoding.md R92) and
the misprediction rate it computes from them (spec/43_eval_and_statistics.md R158).
-/

namespace Sys2Proof.Machine

/-- The status ports, all read-only (R30, R92). -/
inductive StatusPort where
  | statReads
  | statMisp
  | fault
  | faultCause
  | cfgM
  | cfgP
  | cfgN
deriving DecidableEq, Repr

/-- The reference number SR0 to SR6 of R30. -/
def StatusPort.number : StatusPort → Nat
  | .statReads => 0
  | .statMisp => 1
  | .fault => 2
  | .faultCause => 3
  | .cfgM => 4
  | .cfgP => 5
  | .cfgN => 6

/-- The value a status port shows. Between two steps every accepted command has had its effect and its response, so the
engine is quiescent and the value is exact (R92). -/
def State.port (s : State) : StatusPort → Nat
  | .statReads => s.reads.toNat
  | .statMisp => s.misp.toNat
  | .fault => s.fault.toNat
  | .faultCause => s.faultCause.toNat
  | .cfgM => s.cfg.m
  | .cfgP => s.cfg.p
  | .cfgN => s.cfg.n

/-- The misprediction rate in percent, an exact rational number the host computes from the two counters; 0 when nothing
has been evaluated (R158). -/
def rate (reads misp : Count) : ℚ :=
  if reads = 0#64 then 0 else (misp.toNat : ℚ) / (reads.toNat : ℚ) * 100

end Sys2Proof.Machine
end

