-- ==== Sys2Proof/Safety.lean ====
section
/-!
DEFINITION. What counts as a sound state and a run of commands, and what the response list says of the state: the terms
claims are stated in (spec/20_memory.md R60; spec/10_state.md R21, R30; spec/43_eval_and_statistics.md R157).
-/

namespace Sys2Proof.Machine

/-- The engine is running: the premise of every claim about a run (R177). -/
abbrev State.running (s : State) : Prop := s.fault = false

/-- The invariant of the engine: the PHT is in its canonical form over the `2^(p+m)` entries, and `fault_cause` is 1
while FAULT is 1 and 0 while it is 0, so that the codes 2 and 3 never show (R30, R175, R178). -/
abbrev State.Inv (s : State) : Prop :=
  Memory.wf s.cfg.numEntries s.mem ∧ s.faultCause = if s.fault then 1#2 else 0#2

/-- A response has the shape of its column in R90: EVAL.BCN, EVAL.SKIP, PREDICT or UPDATE. -/
abbrev Rsp.wf {p : Nat} (r : Rsp p) : Prop :=
  (r.op = 0#2 ∧ r.skip = false ∧ r.mis = (r.pred != r.taken)) ∨
  (r.op = 0#2 ∧ r.skip = true ∧ r.idx = 0#p ∧ r.pred = false ∧ r.taken = false ∧ r.mis = false) ∨
  (r.op = 1#2 ∧ r.skip = false ∧ r.taken = false ∧ r.mis = false) ∨
  (r.op = 2#2 ∧ r.skip = false ∧ r.pred = false ∧ r.mis = false)

/-- The fields of a response in R90's order, the index as a number: comparable between states of one instance. -/
def Rsp.plain {p : Nat} (r : Rsp p) : BitVec 2 × Bool × Nat × Bool × Bool × Bool :=
  (r.op, r.skip, r.idx.toNat, r.pred, r.taken, r.mis)

/-- The responses of a state, as plain fields. -/
def State.answers (s : State) : List (BitVec 2 × Bool × Nat × Bool × Bool × Bool) := s.rsps.map Rsp.plain

/-- The response of an EVAL.BCN, an evaluated event (R90, R155). -/
def Rsp.evaluates {p : Nat} (r : Rsp p) : Bool := r.op == 0#2 && !r.skip

/-- The response of a command that trains the predictor: UPDATE or EVAL.BCN (R141). -/
def Rsp.trains {p : Nat} (r : Rsp p) : Bool := r.op == 2#2 || r.evaluates

/-- The outcomes of the training commands since the last reset, oldest first (R21, R117). -/
def outcomes {p : Nat} (rs : List (Rsp p)) : List Bool := (rs.filter Rsp.trains).map Rsp.taken

/-- READS is the number of EVAL.BCN responses since the last reset and MISP the number of those with `mis = 1`, modulo
2^64 (R157). -/
abbrev State.StatsConsistent (s : State) : Prop :=
  s.reads = BitVec.ofNat 64 (s.rsps.countP Rsp.evaluates) ∧
  s.misp = BitVec.ofNat 64 (s.rsps.countP fun r => r.evaluates && r.mis)

/-- GHR bit `k` is the outcome of the training command `k` before the latest since the last reset, 0 where there was
none (R21, R117). -/
def State.HistoryConsistent (s : State) : Prop :=
  ∀ k < s.cfg.m, s.ghr.getLsbD k = (outcomes s.rsps).reverse.getD k false

/-- The state the response list determines. -/
structure Predictor (c : Cfg) where
  ghr : BitVec c.m
  mem : Memory c.n
  reads : Count
  misp : Count
deriving DecidableEq, Repr

/-- One response replayed: a training response moves the counter it names and shifts GHR (R141), an evaluating one is
counted (R155, R156). -/
def Predictor.replayOne {c : Cfg} (x : Predictor c) (r : Rsp c.p) : Predictor c :=
  let a := (entryAddr c r.idx x.ghr).toNat
  { ghr := if r.trains then ghrShift c.m x.ghr r.taken else x.ghr
    mem := if r.trains then x.mem.write a (satUpdate c.n (x.mem.read a) r.taken) else x.mem
    reads := bump x.reads r.evaluates
    misp := bump x.misp (r.evaluates && r.mis) }

/-- A response list replayed from the reset state (R60). -/
def replay (c : Cfg) (rs : List (Rsp c.p)) : Predictor c :=
  rs.foldl Predictor.replayOne { ghr := 0#c.m, mem := [], reads := 0#64, misp := 0#64 }

/-- The predictor and the statistics of a state. -/
def State.predictor (s : State) : Predictor s.cfg :=
  { ghr := s.ghr, mem := s.mem, reads := s.reads, misp := s.misp }

/-- The commands `ws` run one after the other, each on the state the earlier ones left; the run stops at a command that
is not accepted (R60, R93, R177). -/
def runCommands : List CmdWord → State → Host.Outcome State Fault Refusal
  | [], s => .next s
  | w :: ws, s =>
    match exec (decode w) s with
    | .next t => runCommands ws t
    | .fault r => .fault r
    | .refused r => .refused r

/-- A command that changes no state and returns a response: PREDICT and EVAL.SKIP (R131, R151). -/
def quiet : Instr → Bool
  | .evalBcn _ _ => false
  | .evalSkip => true
  | .predict _ => true
  | .update _ _ => false
  | .reserved => false

/-- A word whose command is the reserved op (R84). -/
def isReservedWord (w : CmdWord) : Bool := decode w == .reserved

/-- A counter of width `n` after the outcomes `ts`, first outcome first (R116). -/
def satRun (n : Nat) (v : BitVec n) (ts : List Bool) : BitVec n := ts.foldl (satUpdate n) v

/-- GHR of width `m` after the outcomes `ts`, first outcome first (R117). -/
def ghrRun (m : Nat) (g : BitVec m) (ts : List Bool) : BitVec m := ts.foldl (ghrShift m) g

end Sys2Proof.Machine
end

