-- ==== Sys2Proof/Certificates/Slice0/Obligations.lean ====
section
/-!
DEFINITION. The statements for the provers. Each docstring names the rule of spec/ it formalises. Where a clause rests on
a decision the spec marks as its own (spec/92_eei_decisions.md), or on a log entry of this model, the docstring says so.
-/

open Sys2Proof Sys2Proof.Machine

/-! ### Decoding and encoding (spec/30_encoding.md) -/

/-- Words of the table of spec/95_test_vectors.md section 2.6 decode as it says (the encoding is decision D4). -/
def Obligations.DecodesSpecSampleWords : Prop :=
  decode 0x00000000000000000#68 = .evalSkip ∧
  decode 0x1123456789ABCDEF0#68 = .evalSkip ∧
  decode 0x20000000400000010#68 = .evalBcn 0x4#32 0x10#32 ∧
  decode 0x30000000400000010#68 = .evalBcn 0x4#32 0x10#32 ∧
  decode 0x700000100FFFFFFFF#68 = .predict 0x100#32 ∧
  decode 0x80000000400000000#68 = .update 0x4#32 false ∧
  decode 0xB00000004DEADBEEF#68 = .update 0x4#32 true ∧
  decode 0xFFFFFFFFFFFFFFFFF#68 = .reserved

/-- R81 to R83: decoding looks at bits 67 to 65 and takes each operand from its own bits, said by arithmetic on the word's
number (bit positions: decision D4). -/
def Obligations.DecodeReadsFieldPositions : Prop :=
  ∀ w : CmdWord,
    (w.toNat / 2 ^ 66 = 0 → w.toNat / 2 ^ 65 % 2 = 1 →
      decode w = .evalBcn (BitVec.ofNat 32 (w.toNat / 2 ^ 32)) (BitVec.ofNat 32 w.toNat)) ∧
    (w.toNat / 2 ^ 66 = 0 → w.toNat / 2 ^ 65 % 2 = 0 → decode w = .evalSkip) ∧
    (w.toNat / 2 ^ 66 = 1 → decode w = .predict (BitVec.ofNat 32 (w.toNat / 2 ^ 32))) ∧
    (w.toNat / 2 ^ 66 = 2 →
      decode w = .update (BitVec.ofNat 32 (w.toNat / 2 ^ 32)) (w.toNat / 2 ^ 64 % 2 == 1)) ∧
    (w.toNat / 2 ^ 66 = 3 → decode w = .reserved)

/-- R83: the five rows of the opcode table are disjoint and cover all 2^68 words, and the row that covers a word is the
row of the command it decodes to (encoding: decision D4). -/
def Obligations.OpcodeRowsPartitionWords : Prop :=
  ∀ w : CmdWord, ∃ r ∈ opcodeTable, r.covers w = true ∧ r.mnemonic = (decode w).mnemonic ∧
    ∀ r' ∈ opcodeTable, r'.covers w = true → r' = r

/-- Decoding the word of any command, with every operand at every value, gives the command back (R81, R83; the
encoding: decision D4). -/
def Obligations.DecodeEncodeRoundTrip : Prop := ∀ i : Instr, i.wf = true → decode (encode i) = i

/-- The encoder drops exactly the fields a command ignores (R86, ignored fields: decision D7): encoding what a word decodes
to gives the word with its ignored bits cleared and every other bit kept (R81, bit positions: decision D4). -/
def Obligations.EncodeClearsOnlyIgnoredBits : Prop :=
  ∀ w : CmdWord,
    encode (decode w) = match decode w with
      | .evalBcn _ _ => w &&& 0xEFFFFFFFFFFFFFFFF#68
      | .evalSkip => w &&& 0xE0000000000000000#68
      | .predict _ => w &&& 0xCFFFFFFFF00000000#68
      | .update _ _ => w &&& 0xDFFFFFFFF00000000#68
      | .reserved => w &&& 0xC0000000000000000#68

/-- R86 (decision D7): no value of a field a command does not read changes what the step does. -/
def Obligations.IgnoredFieldsHaveNoEffect : Prop :=
  ∀ (s : State) (c c' t t' : Bool) (pc pc' npc npc' : Pc),
    step (s.offer (packWord 0#2 true t pc npc)) = step (s.offer (packWord 0#2 true t' pc npc)) ∧
    step (s.offer (packWord 0#2 false t pc npc)) = step (s.offer (packWord 0#2 false t' pc' npc')) ∧
    step (s.offer (packWord 1#2 c t pc npc)) = step (s.offer (packWord 1#2 c' t' pc npc')) ∧
    step (s.offer (packWord 2#2 c t pc npc)) = step (s.offer (packWord 2#2 c' t pc npc')) ∧
    step (s.offer (packWord 3#2 c t pc npc)) = step (s.offer (packWord 3#2 c' t' pc' npc'))

/-- R94, R174 (mnemonics: decision D19): a line whose numbers fit assembles, its word decodes to the line's command, and
no line assembles to the reserved op. -/
def Obligations.AssembledLinesDecode : Prop :=
  ∀ l : AsmLine,
    (l.wf = true → ∃ w, l.assemble = some w) ∧
    ∀ w, l.assemble = some w → decode w = l.instr ∧ decode w ≠ .reserved

/-- R81, R87, R95 (bit positions: decision D4; kind bit: decision D5): a trace event assembles to an EVAL whose kind
bit is 1 exactly when the operation code is BCN, with the two PCs in their fields. -/
def Obligations.TraceEventsAssembleToEval : Prop :=
  ∀ (e : TraceEvent) (w : CmdWord), e.toAsm.assemble = some w →
    w.toNat / 2 ^ 66 = 0 ∧ (w.toNat / 2 ^ 65 % 2 = 1 ↔ e.code = "BCN") ∧
    w.toNat / 2 ^ 32 % 2 ^ 32 = e.pc ∧ w.toNat % 2 ^ 32 = e.npc

/-! ### The step and the host (spec/30_encoding.md R93, spec/70_reset_and_hazards.md) -/

/-- The step runs the command the offered word decodes to, on the state past that word (R93; the host's input list: log
entry 2). -/
def Obligations.StepRunsOfferedCommand : Prop :=
  ∀ (s : State) (w : CmdWord) (rest : List HostEvent), s.input = .command w :: rest → (decode w).wf = true →
    step s = exec (decode w) { s with input := rest }

/-- R93, R187: while no command is accepted no state changes; an idle event only passes (the host's input list: log
entry 2). -/
def Obligations.StepIdleKeepsState : Prop :=
  ∀ s : State,
    (s.input = [] → step s = .next s) ∧
    ∀ rest, s.input = .idle :: rest → step s = .next { s with input := rest }

/-- The words the host offers run as a left fold of the commands: k steps over a queue of k words are the k commands run
one after the other, and what the host does later stays queued (R60, R93; the queue: log entry 2). -/
def Obligations.StepsAreFoldOfCommands : Prop :=
  ∀ (ws : List CmdWord) (s : State) (rest : List HostEvent),
    Host.Core.run Sys2Proof.core ws.length { s with input := ws.map HostEvent.command ++ rest } =
      runCommands ws { s with input := rest }

/-- R211, R160, R177 (decisions D8, D9, D17; the outcome `notAccepted`: log entry 4): a command list is consumed to its end, or to its first reserved op, which aborts; the machine then
accepts nothing more. -/
def Obligations.CommandListConsumedToFirstReserved : Prop :=
  ∀ (s : State) (ws : List CmdWord), s.running → (∀ w ∈ ws, isReservedWord w = false) →
    ∃ t, runCommands ws s = .next t ∧ t.running ∧
      ∀ (w : CmdWord) (post : List CmdWord), isReservedWord w = true →
        (post = [] → runCommands (ws ++ w :: post) s = .next { t with fault := true, faultCause := 1#2 }) ∧
        (post ≠ [] → runCommands (ws ++ w :: post) s = .fault .notAccepted)

/-- Progress (R211, R177; decision D9, the outcome `notAccepted`: log entry 4): every state has a next state, except that a command offered while FAULT is 1 stops
the run, not accepted. -/
def Obligations.OnlyFaultedMachineStops : Prop :=
  ∀ s : State,
    (∃ t, step s = .next t) ∨
    (s.fault = true ∧ step s = .fault .notAccepted ∧ ∃ w rest, s.input = .command w :: rest)

/-- R177 (decision D9; the outcome `notAccepted`: log entry 4): while FAULT is 1 no command has a successor, and `cmd_ready` is 0. -/
def Obligations.FaultedMachineAcceptsNoCommand : Prop :=
  ∀ (i : Instr) (s : State), s.fault = true → exec i s = .fault .notAccepted ∧ s.cmdReady = false

/-! ### Reset (spec/10_state.md R34, spec/70_reset_and_hazards.md R200 to R202) -/

/-- R34: what reset leaves. The values of GHR, FAULT and `fault_cause` are the spec's decisions D11 and D9; the
configuration of `State.reset` is log entry 1. -/
def Obligations.ResetLeavesSpecValues : Prop :=
  (∀ c : Cfg,
    (State.resetOf c).cfg = c ∧ (∀ a : Nat, (State.resetOf c).mem.read a = 0#c.n) ∧
    (State.resetOf c).ghr = 0#c.m ∧ (State.resetOf c).reads = 0#64 ∧ (State.resetOf c).misp = 0#64 ∧
    (State.resetOf c).fault = false ∧ (State.resetOf c).faultCause = 0#2) ∧
  State.reset = State.resetOf instanceCfg

/-- R200, R179, R202 (decision D12; that the host's later events stay queued: log entry 2; that the response list is empty
again: log entry 3): a reset edge puts every piece of state at its reset value (R34), from any state, an abort included; the word
offered at that edge is not accepted, the configuration stays, and what the host does later stays queued. -/
def Obligations.ResetEdgeResetsEverything : Prop :=
  ∀ (s : State) (o : Option CmdWord) (rest : List HostEvent), s.input = .reset o :: rest →
    step s = .next { State.resetOf s.cfg with input := rest }

/-- R202 (decision D12; the emptied response list: log entry 3; a step is a whole command: log entry 8): a reset voids a command accepted before it; resetting after the command and resetting instead of
it give the same state. -/
def Obligations.ResetVoidsEarlierCommand : Prop :=
  ∀ (i : Instr) (s t : State), exec i s = .next t → applyReset t = applyReset s

/-- R208 (response: decision D18): from reset every prediction is "not taken", whatever the PC, and PREDICT answers so. -/
def Obligations.FreshPredictorSaysNotTaken : Prop :=
  ∀ (c : Cfg) (pc : Pc), ∃ t, exec (.predict pc) (State.resetOf c) = .next t ∧
    t.answers = [(1#2, false, (pc.toNat >>> 2) &&& (2 ^ c.p - 1), false, false, false)]

/-! ### The datapath functions (spec/40_datapath_functions.md) -/

/-- R110: the index is `(PC >> 2) & (2^p - 1)`, below `2^p`; PCs `2^(p+2)` apart modulo 2^32 share it. -/
def Obligations.IndexHashSelectsPcBits : Prop :=
  ∀ (c : Cfg) (pc : Pc),
    (idx c pc).toNat = (pc.toNat >>> 2) &&& (2 ^ c.p - 1) ∧ (idx c pc).toNat < 2 ^ c.p ∧
    idx c (pc + BitVec.ofNat 32 (2 ^ (c.p + 2))) = idx c pc

/-- R55: PCs that agree in bits p+1 down to 2 use the same entry under the same GHR. -/
def Obligations.PcsWithSameIndexBitsShareEntry : Prop :=
  ∀ (s : State) (pc pc' : Pc), (∀ k < s.cfg.p, pc.getLsbD (k + 2) = pc'.getLsbD (k + 2)) →
    entryOf s pc = entryOf s pc'

/-- R111: not taken exactly when the next PC is the current PC plus 4; the sum is modulo 2^32 by decision D10. -/
def Obligations.NotTakenIffSequential : Prop :=
  ∀ pc npc : Pc, inferTaken pc npc = false ↔ npc.toNat = (pc.toNat + 4) % 2 ^ 32

/-- R112: the prediction is `ctr >> (n - 1)`, which is 0 or 1, and is 1 exactly when `ctr >= 2^(n-1)`; at `n = 1` it is
the counter, and a counter at 0 predicts not taken. -/
def Obligations.PredictionBitIsTopBit : Prop :=
  ∀ (c : Cfg) (ctr : BitVec c.n),
    (predBit c ctr).toNat = ctr.toNat >>> (c.n - 1) ∧
    (predBit c ctr = true ↔ 2 ^ (c.n - 1) ≤ ctr.toNat) ∧
    (c.n = 1 → (predBit c ctr).toNat = ctr.toNat) ∧
    (ctr = 0#c.n → predBit c ctr = false)

/-- R113: the saturating update moves the counter by exactly one and clamps at `2^n - 1` and 0; at `n = 1` the result is
the outcome; the top bit flips only on the two middle steps. -/
def Obligations.SaturatingUpdateClamps : Prop :=
  ∀ (c : Cfg) (ctr : BitVec c.n),
    (satUpdate c.n ctr true).toNat = (if ctr.toNat = 2 ^ c.n - 1 then ctr.toNat else ctr.toNat + 1) ∧
    (satUpdate c.n ctr false).toNat = (if ctr.toNat = 0 then 0 else ctr.toNat - 1) ∧
    (∀ t : Bool, c.n = 1 → (satUpdate c.n ctr t).toNat = t.toNat) ∧
    ∀ t : Bool, predBit c (satUpdate c.n ctr t) ≠ predBit c ctr ↔
      (t = true ∧ ctr.toNat = 2 ^ (c.n - 1) - 1) ∨ (t = false ∧ ctr.toNat = 2 ^ (c.n - 1))

/-- R116 (c), (d): repeated updates, k one way, reach `min (v + k, 2^n - 1)` or `max (v - k, 0)`, and the two directions cancel
except at the rails. -/
def Obligations.SaturationAfterRepeatedUpdates : Prop :=
  ∀ (c : Cfg) (v : BitVec c.n) (k : Nat),
    (satRun c.n v (List.replicate k true)).toNat = min (v.toNat + k) (2 ^ c.n - 1) ∧
    (satRun c.n v (List.replicate k false)).toNat = v.toNat - k ∧
    (satRun c.n v [true, false]).toNat = (if v.toNat = 2 ^ c.n - 1 then 2 ^ c.n - 2 else v.toNat) ∧
    (satRun c.n v [false, true]).toNat = (if v.toNat = 0 then 1 else v.toNat)

/-- R154 (b), R208: a fresh entry predicts taken after its `2^(n-1)`-th taken update and not before. -/
def Obligations.FreshEntryTakenAfterHalfRange : Prop :=
  ∀ (c : Cfg) (k : Nat),
    predBit c (satRun c.n 0#c.n (List.replicate k true)) = true ↔ 2 ^ (c.n - 1) ≤ k

/-- R114: `((g << 1) | t) & (2^m - 1)`; at `m = 0` it is 0, at `m = 1` it is the outcome, and it is always below
`2^m`. -/
def Obligations.HistoryShiftFormula : Prop :=
  ∀ (m : Nat) (g : BitVec m) (t : Bool),
    (ghrShift m g t).toNat = ((g.toNat <<< 1) ||| t.toNat) &&& (2 ^ m - 1) ∧
    (m = 0 → (ghrShift m g t).toNat = 0) ∧ (m = 1 → (ghrShift m g t).toNat = t.toNat) ∧
    (ghrShift m g t).toNat < 2 ^ m

/-- R117: after outcomes `ts`, GHR bit k is the outcome k before the last, and beyond the outcomes the old bits moved
up. -/
def Obligations.HistoryHoldsLastOutcomes : Prop :=
  ∀ (m : Nat) (g : BitVec m) (ts : List Bool) (k : Nat), k < m →
    (ghrRun m g ts).getLsbD k = if k < ts.length then ts.reverse.getD k false else g.getLsbD (k - ts.length)

/-! ### The PHT memory (spec/20_memory.md) -/

/-- R51, R54: the entry address is `idx * 2^m + GHR` and is in range (layout: decision D15). -/
def Obligations.EntryAddressIsTableTimesRowsPlusRow : Prop :=
  ∀ (s : State) (pc : Pc),
    (entryOf s pc).toNat = ((pc.toNat >>> 2) &&& (2 ^ s.cfg.p - 1)) * 2 ^ s.cfg.m + s.ghr.toNat ∧
    (entryOf s pc).toNat < 2 ^ (s.cfg.p + s.cfg.m)

/-- R52, R53: a PHT write replaces its entry and changes no other, and what is written last is what is read. -/
def Obligations.PhtWriteChangesOneEntry : Prop :=
  ∀ (s : State) (a b : BitVec (s.cfg.p + s.cfg.m)) (v : BitVec s.cfg.n), Memory.wf s.cfg.numEntries s.mem →
    (s.phtWrite a v).phtRead b = if b = a then v else s.phtRead b

/-- R141: the update body writes, at table i and the row of the GHR from before, the saturated counter, changes no other
entry, then shifts GHR; no statistic changes. -/
def Obligations.UpdateBodyWritesThenShifts : Prop :=
  ∀ (s : State) (i : BitVec s.cfg.p) (t : Bool), Memory.wf s.cfg.numEntries s.mem →
    let a := i.toNat * 2 ^ s.cfg.m + s.ghr.toNat
    (doUpdate s i t).mem.read a = satUpdate s.cfg.n (s.mem.read a) t ∧
    (∀ b : Nat, b ≠ a → (doUpdate s i t).mem.read b = s.mem.read b) ∧
    (doUpdate s i t).ghr = ghrShift s.cfg.m s.ghr t ∧
    (doUpdate s i t).reads = s.reads ∧ (doUpdate s i t).misp = s.misp ∧
    (doUpdate s i t).fault = s.fault ∧ (doUpdate s i t).faultCause = s.faultCause ∧
    (doUpdate s i t).rsps = s.rsps ∧ (doUpdate s i t).input = s.input

/-! ### The commands complete, with the effect the spec gives them -/

/-- PREDICT (R130; operand and response: decisions D6, D18): it answers the top bit of the counter at table
`(pc >> 2) & (2^p - 1)`, row GHR, and changes nothing else. -/
def Obligations.PredictAnswersTopBitOfCounter : Prop :=
  ∀ (pc : Pc) (s : State), s.running →
    let i := (pc.toNat >>> 2) &&& (2 ^ s.cfg.p - 1)
    let v := (s.mem.read (i * 2 ^ s.cfg.m + s.ghr.toNat)).toNat
    ∃ r : Rsp s.cfg.p, exec (.predict pc) s = .next { s with rsps := s.rsps ++ [r] } ∧
      r.plain = (1#2, false, i, decide (v >>> (s.cfg.n - 1) = 1), false, false)

/-- UPDATE (R140, R141; response: decision D18): the one counter moves a clamped step towards the outcome, GHR shifts,
the statistics stay. -/
def Obligations.UpdateTrainsOneCounter : Prop :=
  ∀ (pc : Pc) (b : Bool) (s : State), s.running → Memory.wf s.cfg.numEntries s.mem →
    let i := (pc.toNat >>> 2) &&& (2 ^ s.cfg.p - 1)
    let a := i * 2 ^ s.cfg.m + s.ghr.toNat
    let v := (s.mem.read a).toNat
    ∃ t, exec (.update pc b) s = .next t ∧ t.cfg = s.cfg ∧
      (t.mem.read a).toNat = (if b then min (v + 1) (2 ^ s.cfg.n - 1) else v - 1) ∧
      (∀ a', a' ≠ a → (t.mem.read a').toNat = (s.mem.read a').toNat) ∧
      t.ghr.toNat = ((s.ghr.toNat <<< 1) ||| b.toNat) &&& (2 ^ s.cfg.m - 1) ∧
      t.reads = s.reads ∧ t.misp = s.misp ∧ t.fault = false ∧ t.faultCause = s.faultCause ∧
      t.answers = s.answers ++ [(2#2, false, i, false, b, false)]

/-- EVAL.BCN (R150, R152, R155, R156; PC + 4 modulo 2^32, 64-bit counters and response: decisions D10, D13, D18):
predict and compare on the state before, then train with the inferred outcome, count, answer. -/
def Obligations.EvalBcnPredictsThenTrainsAndCounts : Prop :=
  ∀ (pc npc : Pc) (s : State), s.running → Memory.wf s.cfg.numEntries s.mem →
    let i := (pc.toNat >>> 2) &&& (2 ^ s.cfg.p - 1)
    let a := i * 2 ^ s.cfg.m + s.ghr.toNat
    let v := (s.mem.read a).toNat
    let tk := decide (npc.toNat ≠ (pc.toNat + 4) % 2 ^ 32)
    let pr := decide (2 ^ (s.cfg.n - 1) ≤ v)
    ∃ t, exec (.evalBcn pc npc) s = .next t ∧ t.cfg = s.cfg ∧
      (t.mem.read a).toNat = (if tk then min (v + 1) (2 ^ s.cfg.n - 1) else v - 1) ∧
      (∀ a', a' ≠ a → (t.mem.read a').toNat = (s.mem.read a').toNat) ∧
      t.ghr.toNat = ((s.ghr.toNat <<< 1) ||| tk.toNat) &&& (2 ^ s.cfg.m - 1) ∧
      t.reads.toNat = (s.reads.toNat + 1) % 2 ^ 64 ∧
      t.misp.toNat = (if pr = tk then s.misp.toNat else (s.misp.toNat + 1) % 2 ^ 64) ∧
      t.fault = false ∧ t.faultCause = s.faultCause ∧
      t.answers = s.answers ++ [(0#2, false, i, pr, tk, pr != tk)]

/-- EVAL.SKIP (R151; response: decision D18): only the response with `skip = 1`. -/
def Obligations.EvalSkipOnlyResponds : Prop :=
  ∀ s : State, s.running →
    exec .evalSkip s = .next { s with rsps := s.rsps ++
      [{ op := 0#2, skip := true, idx := 0#s.cfg.p, pred := false, taken := false, mis := false }] }

/-- The reserved op (R84, R174, R176; decisions D8, D9): FAULT and `fault_cause` are set, nothing else changes, there is
no response. -/
def Obligations.ReservedOpAborts : Prop :=
  ∀ s : State, s.running → exec .reserved s = .next { s with fault := true, faultCause := 1#2 }

/-! ### Frames -/

/-- PREDICT and EVAL.SKIP leave every entry, every register and the input as they are, and every earlier response
(R131, R151). -/
def Obligations.PredictAndSkipFrame : Prop :=
  ∀ (pc : Pc) (s t : State), (exec (.predict pc) s = .next t ∨ exec .evalSkip s = .next t) →
    t.cfg = s.cfg ∧ t.ghr.toNat = s.ghr.toNat ∧ (∀ a, (t.mem.read a).toNat = (s.mem.read a).toNat) ∧
    t.reads = s.reads ∧ t.misp = s.misp ∧ t.fault = s.fault ∧ t.faultCause = s.faultCause ∧
    t.input = s.input ∧ s.answers <+: t.answers

/-- UPDATE writes no entry but the one at `entryOf s pc`, and only GHR of the registers (R140, R141). -/
def Obligations.UpdateFrame : Prop :=
  ∀ (pc : Pc) (b : Bool) (s t : State), exec (.update pc b) s = .next t →
    t.cfg = s.cfg ∧ (∀ a, a ≠ (entryOf s pc).toNat → (t.mem.read a).toNat = (s.mem.read a).toNat) ∧
    t.reads = s.reads ∧ t.misp = s.misp ∧ t.fault = s.fault ∧ t.faultCause = s.faultCause ∧
    t.input = s.input ∧ s.answers <+: t.answers

/-- EVAL.BCN writes no entry but the one at `entryOf s pc`, and of the registers only GHR, READS and MISP (R150). -/
def Obligations.EvalBcnFrame : Prop :=
  ∀ (pc npc : Pc) (s t : State), exec (.evalBcn pc npc) s = .next t →
    t.cfg = s.cfg ∧ (∀ a, a ≠ (entryOf s pc).toNat → (t.mem.read a).toNat = (s.mem.read a).toNat) ∧
    t.fault = s.fault ∧ t.faultCause = s.faultCause ∧ t.input = s.input ∧ s.answers <+: t.answers

/-- The reserved op changes only FAULT and `fault_cause`: no entry, no other register, no response (R176). -/
def Obligations.ReservedOpFrame : Prop :=
  ∀ s t : State, exec .reserved s = .next t →
    t.cfg = s.cfg ∧ t.ghr.toNat = s.ghr.toNat ∧ (∀ a, (t.mem.read a).toNat = (s.mem.read a).toNat) ∧
    t.reads = s.reads ∧ t.misp = s.misp ∧ t.input = s.input ∧ t.answers = s.answers

/-! ### Invariants every step keeps -/

/-- The invariant (canonical PHT: log entry 14; `fault_cause`: decision D9) holds after reset, for every configuration. -/
def Obligations.ResetMeetsInvariant : Prop := (∀ c : Cfg, (State.resetOf c).Inv) ∧ State.reset.Inv

/-- Every step keeps the PHT in its canonical form, addresses rising and no entry 0 (the model's own form: log entry 14),
its addresses in range (R54), and `fault_cause` 1 exactly while FAULT is 1, else 0, so that code 2 never shows (R30, R175,
R178; decisions D9, D21). -/
def Obligations.StepKeepsInvariant : Prop := ∀ s t : State, s.Inv → step s = .next t → t.Inv

/-- No step changes m, p or n (R7, R200; decision D1). -/
def Obligations.StepKeepsConfiguration : Prop := ∀ s t : State, step s = .next t → t.cfg = s.cfg

/-- R157: READS counts the EVAL.BCN responses since the last reset and MISP those with `mis = 1`, modulo 2^64 (decision
D13; the response list: log entry 3); reset starts the count. -/
def Obligations.StatisticsCountResponses : Prop :=
  (∀ c : Cfg, (State.resetOf c).StatsConsistent) ∧
  ∀ s t : State, s.StatsConsistent → step s = .next t → t.StatsConsistent

/-- R26 (modulus: decision D13; the response list: log entry 3): a step from a state whose counters count its responses
leaves MISP at most READS, as long as fewer than 2^64 responses have been returned since reset. -/
def Obligations.MispAtMostReads : Prop :=
  ∀ s t : State, s.StatsConsistent → step s = .next t → t.rsps.length < 2 ^ 64 → t.misp.toNat ≤ t.reads.toNat

/-- R21, R117: GHR bit k is the outcome of the training command k before the latest since reset, 0 before the first (the
reset value is decision D11; the response list: log entry 3). -/
def Obligations.GhrRecordsOutcomes : Prop :=
  (∀ c : Cfg, (State.resetOf c).HistoryConsistent) ∧
  ∀ s t : State, s.HistoryConsistent → step s = .next t → t.HistoryConsistent

/-- R60 (response fields: decision D18; the response list: log entry 3): the predictor and the statistics are what replaying the responses since the last reset gives; reset starts the
replay and every step keeps it. -/
def Obligations.ResponsesDetermineState : Prop :=
  (∀ c : Cfg, (State.resetOf c).predictor = replay c []) ∧
  ∀ s t : State, s.predictor = replay s.cfg s.rsps → step s = .next t → t.predictor = replay t.cfg t.rsps

/-- R90 (decision D18): every response has the shape of its command's column; every step keeps it. -/
def Obligations.ResponsesKeepTheirShape : Prop :=
  ∀ s t : State, (∀ r ∈ s.rsps, r.wf) → step s = .next t → ∀ r ∈ t.rsps, r.wf

/-! ### Rules of the whole machine -/

/-- R93: an accepted command other than the reserved op returns exactly one response, after all earlier ones, under its
own op; the reserved op returns none. -/
def Obligations.OneResponsePerCommand : Prop :=
  ∀ (i : Instr) (s t : State), exec i s = .next t →
    (i = .reserved → t.answers = s.answers) ∧
    (i ≠ .reserved → ∃ r, t.answers = s.answers ++ [r] ∧ r.1 = CmdWord.op (encode i))

/-- R174, R175 (decisions D8, D9; op's bit positions: decision D4): FAULT rises only when a reserved word is accepted, and the cause is then 1. -/
def Obligations.OnlyReservedOpRaisesFault : Prop :=
  ∀ s t : State, step s = .next t → s.fault = false → t.fault = true →
    t.faultCause = 1#2 ∧ ∃ w rest, s.input = .command w :: rest ∧ w.toNat / 2 ^ 66 = 3

/-- R27, R177 (decision D9; the host's input list: log entry 2; the emptied response list: log entry 3): in a faulted state a step resets or changes nothing but the host's input. -/
def Obligations.FaultHoldsUntilReset : Prop :=
  ∀ s t : State, s.fault = true → step s = .next t →
    (∃ o rest, s.input = .reset o :: rest ∧ t = { State.resetOf s.cfg with input := rest }) ∨
    t = { s with input := t.input }

/-- R21, R53, R200: GHR and the PHT change only by UPDATE, EVAL.BCN or reset. -/
def Obligations.OnlyTrainingOrResetChangesPredictor : Prop :=
  ∀ s t : State, step s = .next t →
    (t.ghr.toNat ≠ s.ghr.toNat ∨ ∃ a, (t.mem.read a).toNat ≠ (s.mem.read a).toNat) →
    (∃ o rest, s.input = .reset o :: rest) ∨
    ∃ w rest, s.input = .command w :: rest ∧
      ((∃ pc b, decode w = .update pc b) ∨ ∃ pc npc, decode w = .evalBcn pc npc)

/-- R23, R59, R141: UPDATE and EVAL.BCN leave every entry but the one at table `idx(pc)`, row GHR as it stands before,
as it was, and move that entry by at most one; the other commands leave every entry as it was. -/
def Obligations.CommandMovesAtMostOneCounter : Prop :=
  ∀ (i : Instr) (s t : State), s.Inv → exec i s = .next t →
    match i with
    | .evalBcn pc _ =>
      (∀ a, a ≠ (entryOf s pc).toNat → (t.mem.read a).toNat = (s.mem.read a).toNat) ∧
      (t.mem.read (entryOf s pc).toNat).toNat ≤ (s.mem.read (entryOf s pc).toNat).toNat + 1 ∧
      (s.mem.read (entryOf s pc).toNat).toNat ≤ (t.mem.read (entryOf s pc).toNat).toNat + 1
    | .update pc _ =>
      (∀ a, a ≠ (entryOf s pc).toNat → (t.mem.read a).toNat = (s.mem.read a).toNat) ∧
      (t.mem.read (entryOf s pc).toNat).toNat ≤ (s.mem.read (entryOf s pc).toNat).toNat + 1 ∧
      (s.mem.read (entryOf s pc).toNat).toNat ≤ (t.mem.read (entryOf s pc).toNat).toNat + 1
    | .evalSkip => ∀ a, (t.mem.read a).toNat = (s.mem.read a).toNat
    | .predict _ => ∀ a, (t.mem.read a).toNat = (s.mem.read a).toNat
    | .reserved => ∀ a, (t.mem.read a).toNat = (s.mem.read a).toNat

/-- R155, R156, R25, R26 (modulus: decision D13): READS is one more after an EVAL.BCN and MISP one more after one whose
prediction differs from the inferred outcome; no other command writes either. -/
def Obligations.OnlyEvaluationsAreCounted : Prop :=
  ∀ (i : Instr) (s t : State), exec i s = .next t →
    match i with
    | .evalBcn pc npc =>
      t.reads.toNat = (s.reads.toNat + 1) % 2 ^ 64 ∧
      t.misp.toNat = if s.prediction pc = inferTaken pc npc then s.misp.toNat else (s.misp.toNat + 1) % 2 ^ 64
    | .evalSkip => t.reads = s.reads ∧ t.misp = s.misp
    | .predict _ => t.reads = s.reads ∧ t.misp = s.misp
    | .update _ _ => t.reads = s.reads ∧ t.misp = s.misp
    | .reserved => t.reads = s.reads ∧ t.misp = s.misp

/-- R131: PREDICT twice in a row answers the same. -/
def Obligations.PredictTwiceAnswersSame : Prop :=
  ∀ (pc : Pc) (s : State), s.running →
    ∃ t u, exec (.predict pc) s = .next t ∧ exec (.predict pc) t = .next u ∧
      t.answers.getLast? = u.answers.getLast? ∧ u.answers.length = s.answers.length + 2

/-- R132, R153 (the counters' modulus: decision D13): EVAL.BCN has the predictor effect of PREDICT then UPDATE with the inferred outcome, answers PREDICT's
prediction, and counts in addition. -/
def Obligations.EvalIsPredictThenUpdate : Prop :=
  ∀ (pc npc : Pc) (s : State), s.running →
    ∃ t u v, exec (.predict pc) s = .next t ∧ exec (.update pc (inferTaken pc npc)) t = .next u ∧
      exec (.evalBcn pc npc) s = .next v ∧
      v.ghr.toNat = u.ghr.toNat ∧ (∀ a, (v.mem.read a).toNat = (u.mem.read a).toNat) ∧
      v.rsps.getLast?.map Rsp.pred = t.rsps.getLast?.map Rsp.pred ∧
      u.reads = s.reads ∧ u.misp = s.misp ∧ v.reads = s.reads + 1#64 ∧
      v.misp = if t.rsps.getLast?.map Rsp.pred = some (inferTaken pc npc) then s.misp else s.misp + 1#64

/-- R131, R151: a PREDICT or EVAL.SKIP inserted anywhere into a run of commands changes neither the final state nor any
other response. -/
def Obligations.PredictAndSkipInsertable : Prop :=
  ∀ (pre post : List CmdWord) (w : CmdWord) (s t : State), quiet (decode w) = true →
    runCommands (pre ++ w :: post) s = .next t →
    ∃ before r after, t.rsps = before ++ r :: after ∧ before.length = s.rsps.length + pre.length ∧
      runCommands (pre ++ post) s = .next { t with rsps := before ++ after }

/-! ### The configuration and the rate -/

/-- R8, R171 (bounds on m and the platform's limit: decision D2, log entry 7): construction answers an instance only for a
well-formed configuration, the instance has its three numbers, and every well-formed configuration has one; well-formed
are exactly the numbers with `n >= 1`, `p <= 30` and `p + m` within the platform's limit. -/
def Obligations.InstanceBuiltIffConfigurationWellFormed : Prop :=
  ∀ (limit : Option Nat) (r : RawCfg),
    (∀ c : Cfg, r.build limit = .ok c → r.wf limit = true ∧ c.m = r.m ∧ c.p = r.p ∧ c.n = r.n) ∧
    (r.wf limit = true → ∃ c : Cfg, r.build limit = .ok c) ∧
    (r.wf limit = true ↔ 1 ≤ r.n ∧ r.p ≤ 30 ∧ ∀ k, limit = some k → r.p + r.m ≤ k)

/-- R158 (decision D14): the rate is 0 when nothing was evaluated, else MISP / READS * 100, and lies in [0, 100] while
MISP is at most READS. -/
def Obligations.RateIsPercentage : Prop :=
  ∀ reads misp : Count,
    (reads = 0#64 → rate reads misp = 0) ∧
    (reads ≠ 0#64 → rate reads misp * (reads.toNat : ℚ) = (misp.toNat : ℚ) * 100) ∧
    (misp.toNat ≤ reads.toNat → 0 ≤ rate reads misp ∧ rate reads misp ≤ 100)
end

