-- ==== Sys2Proof/Laws/Memory.lean ====
section
/-!
SUPPORT. The laws of the PHT memory: what a read sees after a write, and the canonical form.
-/

namespace Sys2Proof.Machine

variable {n : Nat}

@[simp] theorem read_nil (a : Nat) : Memory.read ([] : Memory n) a = 0#n := rfl

@[simp] theorem wf_nil (size : Nat) : Memory.wf size ([] : Memory n) := ⟨.nil, by simp⟩

/-- The tail of a canonical memory is canonical. -/
theorem wf_tail {size : Nat} {e : Nat × BitVec n} {mem : Memory n} (h : Memory.wf size (e :: mem)) :
    Memory.wf size mem :=
  ⟨h.1.of_cons, fun d hd => h.2 d (List.mem_cons_of_mem _ hd)⟩

/-- An address below every listed one reads as the reset value. -/
theorem read_below {mem : Memory n} {a : Nat} (h : ∀ e ∈ mem, a < e.1) : mem.read a = 0#n := by
  induction mem with
  | nil => rfl
  | cons e rest ih =>
    have he : e.1 ≠ a := by have := h e List.mem_cons_self; omega
    simp only [Memory.read, if_neg he]
    exact ih fun d hd => h d (List.mem_cons_of_mem _ hd)

/-- A write leaves every other entry alone. -/
theorem read_write_other (mem : Memory n) {a b : Nat} (v : BitVec n) (h : b ≠ a) :
    (mem.write a v).read b = mem.read b := by
  induction mem with
  | nil => unfold Memory.write; split <;> simp [Memory.read, h.symm]
  | cons e rest ih =>
    unfold Memory.write
    split
    · split <;> simp [Memory.read, h.symm]
    · split
      · next hea => split <;> simp [Memory.read, hea, h.symm]
      · simp [Memory.read, ih]

/-- A read after a write to the same entry gives the value written. -/
theorem read_write_same {size : Nat} {mem : Memory n} (hwf : Memory.wf size mem) (a : Nat) (v : BitVec n) :
    (mem.write a v).read a = v := by
  induction mem with
  | nil => unfold Memory.write; split <;> simp_all [Memory.read]
  | cons e rest ih =>
    have hlt : ∀ d ∈ rest, e.1 < d.1 := (List.pairwise_cons.1 hwf.1).1
    unfold Memory.write
    split
    · next hae =>
      split
      · next hv =>
        rw [hv]
        exact read_below fun d hd => by
          rcases List.mem_cons.1 hd with rfl | hd
          · exact hae
          · exact hae.trans (hlt d hd)
      · simp [Memory.read]
    · split
      · next hea =>
        split
        · next hv => rw [hv]; exact read_below fun d hd => hea ▸ hlt d hd
        · simp [Memory.read]
      · next hea => simp [Memory.read, hea, ih (wf_tail hwf)]

/-- The addresses of a written memory are the written one and old ones, and every entry is an old one or the new one. -/
theorem mem_write {mem : Memory n} {a : Nat} {v : BitVec n} {d : Nat × BitVec n} (hd : d ∈ mem.write a v) :
    d = (a, v) ∧ v ≠ 0#n ∨ d ∈ mem := by
  induction mem with
  | nil => unfold Memory.write at hd; split at hd <;> simp_all
  | cons e rest ih =>
    unfold Memory.write at hd
    split at hd
    · split at hd <;> simp_all
    · split at hd
      · split at hd
        · exact .inr (List.mem_cons_of_mem _ hd)
        · rcases List.mem_cons.1 hd with rfl | hd
          · exact .inl ⟨rfl, by assumption⟩
          · exact .inr (List.mem_cons_of_mem _ hd)
      · rcases List.mem_cons.1 hd with rfl | hd
        · exact .inr List.mem_cons_self
        · exact (ih hd).imp_right (List.mem_cons_of_mem _)

/-- A write in range keeps the canonical form. -/
theorem write_wf {size : Nat} {mem : Memory n} (hwf : Memory.wf size mem) {a : Nat} (ha : a < size) (v : BitVec n) :
    Memory.wf size (mem.write a v) := by
  refine ⟨?_, fun d hd => ?_⟩
  · induction mem with
    | nil => unfold Memory.write; split <;> simp
    | cons e rest ih =>
      obtain ⟨hlt, hrest⟩ := List.pairwise_cons.1 hwf.1
      unfold Memory.write
      split
      · next hae =>
        split
        · exact hwf.1
        · refine List.pairwise_cons.2 ⟨fun d hd => ?_, hwf.1⟩
          rcases List.mem_cons.1 hd with rfl | hd
          · exact hae
          · exact hae.trans (hlt d hd)
      · next hae =>
        split
        · next hea =>
          split
          · exact hrest
          · exact List.pairwise_cons.2 ⟨fun d hd => hea ▸ hlt d hd, hrest⟩
        · next hea =>
          refine List.pairwise_cons.2 ⟨fun d hd => ?_, ih (wf_tail hwf)⟩
          rcases mem_write hd with ⟨rfl, -⟩ | hd
          · simp only; omega
          · exact hlt d hd
  · rcases mem_write hd with ⟨rfl, hv⟩ | hd
    · exact ⟨ha, hv⟩
    · exact hwf.2 d hd

/-- The reset state's memory is canonical. -/
theorem reset_mem_wf (c : Cfg) (size : Nat) : Memory.wf size (State.resetOf c).mem := wf_nil size

end Sys2Proof.Machine
end

