-- ==== Sys2Proof/Laws/State.lean ====
section
/-!
SUPPORT. Every field after every named update of the state, and the fields of the reset state.
-/

namespace Sys2Proof.Machine

variable (s : State)

section Respond
variable (r : Rsp s.cfg.p)
@[simp] theorem respond_cfg : (respond s r).cfg = s.cfg := rfl
@[simp] theorem respond_ghr : (respond s r).ghr = s.ghr := rfl
@[simp] theorem respond_mem : (respond s r).mem = s.mem := rfl
@[simp] theorem respond_reads : (respond s r).reads = s.reads := rfl
@[simp] theorem respond_misp : (respond s r).misp = s.misp := rfl
@[simp] theorem respond_fault : (respond s r).fault = s.fault := rfl
@[simp] theorem respond_faultCause : (respond s r).faultCause = s.faultCause := rfl
@[simp] theorem respond_rsps : (respond s r).rsps = s.rsps ++ [r] := rfl
@[simp] theorem respond_input : (respond s r).input = s.input := rfl
end Respond

section PhtWrite
variable (a : BitVec (s.cfg.p + s.cfg.m)) (v : BitVec s.cfg.n)
@[simp] theorem phtWrite_cfg : (s.phtWrite a v).cfg = s.cfg := rfl
@[simp] theorem phtWrite_ghr : (s.phtWrite a v).ghr = s.ghr := rfl
@[simp] theorem phtWrite_mem : (s.phtWrite a v).mem = s.mem.write a.toNat v := rfl
@[simp] theorem phtWrite_reads : (s.phtWrite a v).reads = s.reads := rfl
@[simp] theorem phtWrite_misp : (s.phtWrite a v).misp = s.misp := rfl
@[simp] theorem phtWrite_fault : (s.phtWrite a v).fault = s.fault := rfl
@[simp] theorem phtWrite_faultCause : (s.phtWrite a v).faultCause = s.faultCause := rfl
@[simp] theorem phtWrite_rsps : (s.phtWrite a v).rsps = s.rsps := rfl
@[simp] theorem phtWrite_input : (s.phtWrite a v).input = s.input := rfl
end PhtWrite

section DoUpdate
variable (i : BitVec s.cfg.p) (t : Bool)
@[simp] theorem doUpdate_cfg : (doUpdate s i t).cfg = s.cfg := rfl
@[simp] theorem doUpdate_ghr : (doUpdate s i t).ghr = ghrShift s.cfg.m s.ghr t := rfl
@[simp] theorem doUpdate_mem : (doUpdate s i t).mem =
    s.mem.write (entryAddr s.cfg i s.ghr).toNat
      (satUpdate s.cfg.n (s.mem.read (entryAddr s.cfg i s.ghr).toNat) t) := rfl
@[simp] theorem doUpdate_reads : (doUpdate s i t).reads = s.reads := rfl
@[simp] theorem doUpdate_misp : (doUpdate s i t).misp = s.misp := rfl
@[simp] theorem doUpdate_fault : (doUpdate s i t).fault = s.fault := rfl
@[simp] theorem doUpdate_faultCause : (doUpdate s i t).faultCause = s.faultCause := rfl
@[simp] theorem doUpdate_rsps : (doUpdate s i t).rsps = s.rsps := rfl
@[simp] theorem doUpdate_input : (doUpdate s i t).input = s.input := rfl
end DoUpdate

section CountEvent
variable (mis : Bool)
@[simp] theorem countEvent_cfg : (countEvent s mis).cfg = s.cfg := rfl
@[simp] theorem countEvent_ghr : (countEvent s mis).ghr = s.ghr := rfl
@[simp] theorem countEvent_mem : (countEvent s mis).mem = s.mem := rfl
@[simp] theorem countEvent_reads : (countEvent s mis).reads = s.reads + 1#64 := rfl
@[simp] theorem countEvent_misp : (countEvent s mis).misp = bump s.misp mis := rfl
@[simp] theorem countEvent_fault : (countEvent s mis).fault = s.fault := rfl
@[simp] theorem countEvent_faultCause : (countEvent s mis).faultCause = s.faultCause := rfl
@[simp] theorem countEvent_rsps : (countEvent s mis).rsps = s.rsps := rfl
@[simp] theorem countEvent_input : (countEvent s mis).input = s.input := rfl
end CountEvent

section RaiseAbort
variable (cause : AbortCause)
@[simp] theorem raiseAbort_cfg : (raiseAbort s cause).cfg = s.cfg := rfl
@[simp] theorem raiseAbort_ghr : (raiseAbort s cause).ghr = s.ghr := rfl
@[simp] theorem raiseAbort_mem : (raiseAbort s cause).mem = s.mem := rfl
@[simp] theorem raiseAbort_reads : (raiseAbort s cause).reads = s.reads := rfl
@[simp] theorem raiseAbort_misp : (raiseAbort s cause).misp = s.misp := rfl
@[simp] theorem raiseAbort_fault : (raiseAbort s cause).fault = true := rfl
@[simp] theorem raiseAbort_faultCause : (raiseAbort s cause).faultCause = cause.code := rfl
@[simp] theorem raiseAbort_rsps : (raiseAbort s cause).rsps = s.rsps := rfl
@[simp] theorem raiseAbort_input : (raiseAbort s cause).input = s.input := rfl
end RaiseAbort

section ResetOf
variable (c : Cfg)
@[simp] theorem resetOf_cfg : (State.resetOf c).cfg = c := rfl
@[simp] theorem resetOf_ghr : (State.resetOf c).ghr = 0#c.m := rfl
@[simp] theorem resetOf_mem : (State.resetOf c).mem = [] := rfl
@[simp] theorem resetOf_reads : (State.resetOf c).reads = 0#64 := rfl
@[simp] theorem resetOf_misp : (State.resetOf c).misp = 0#64 := rfl
@[simp] theorem resetOf_fault : (State.resetOf c).fault = false := rfl
@[simp] theorem resetOf_faultCause : (State.resetOf c).faultCause = 0#2 := rfl
@[simp] theorem resetOf_rsps : (State.resetOf c).rsps = [] := rfl
@[simp] theorem resetOf_input : (State.resetOf c).input = [] := rfl
end ResetOf

section ApplyReset
@[simp] theorem applyReset_cfg : (applyReset s).cfg = s.cfg := rfl
@[simp] theorem applyReset_ghr : (applyReset s).ghr = 0#s.cfg.m := rfl
@[simp] theorem applyReset_mem : (applyReset s).mem = [] := rfl
@[simp] theorem applyReset_reads : (applyReset s).reads = 0#64 := rfl
@[simp] theorem applyReset_misp : (applyReset s).misp = 0#64 := rfl
@[simp] theorem applyReset_fault : (applyReset s).fault = false := rfl
@[simp] theorem applyReset_faultCause : (applyReset s).faultCause = 0#2 := rfl
@[simp] theorem applyReset_rsps : (applyReset s).rsps = [] := rfl
@[simp] theorem applyReset_input : (applyReset s).input = s.input := rfl
end ApplyReset

section Offer
variable (w : CmdWord)
@[simp] theorem offer_cfg : (s.offer w).cfg = s.cfg := rfl
@[simp] theorem offer_ghr : (s.offer w).ghr = s.ghr := rfl
@[simp] theorem offer_mem : (s.offer w).mem = s.mem := rfl
@[simp] theorem offer_reads : (s.offer w).reads = s.reads := rfl
@[simp] theorem offer_misp : (s.offer w).misp = s.misp := rfl
@[simp] theorem offer_fault : (s.offer w).fault = s.fault := rfl
@[simp] theorem offer_faultCause : (s.offer w).faultCause = s.faultCause := rfl
@[simp] theorem offer_rsps : (s.offer w).rsps = s.rsps := rfl
@[simp] theorem offer_input : (s.offer w).input = .command w :: s.input := rfl
end Offer

end Sys2Proof.Machine
end

