-- ==== Sys2Proof/Laws/Exec.lean ====
section
/-!
SUPPORT. What a command and a step can do, said once: the inversion of `accept`, of each meaning and of `step`.
-/

namespace Sys2Proof.Machine

/-- A command is accepted exactly in a running state. -/
theorem accept_eq_next {s t u : State} : accept s t = .next u ↔ s.fault = false ∧ t = u := by
  unfold accept; split <;> simp_all

/-- The inversion of `exec`: the five next states. -/
theorem exec_next_cases {i : Instr} {s t : State} (h : exec i s = .next t) :
    s.fault = false ∧
    ((∃ pc npc, i = .evalBcn pc npc ∧
        t = respond (countEvent (doUpdate s (idx s.cfg pc) (inferTaken pc npc))
              (mispredicted (s.prediction pc) (inferTaken pc npc)))
            { op := 0#2, skip := false, idx := idx s.cfg pc, pred := s.prediction pc,
              taken := inferTaken pc npc, mis := mispredicted (s.prediction pc) (inferTaken pc npc) }) ∨
     (i = .evalSkip ∧
        t = respond s { op := 0#2, skip := true, idx := 0#s.cfg.p, pred := false, taken := false, mis := false }) ∨
     (∃ pc, i = .predict pc ∧
        t = respond s { op := 1#2, skip := false, idx := idx s.cfg pc, pred := s.prediction pc,
                        taken := false, mis := false }) ∨
     (∃ pc b, i = .update pc b ∧
        t = respond (doUpdate s (idx s.cfg pc) b)
              { op := 2#2, skip := false, idx := idx s.cfg pc, pred := false, taken := b, mis := false }) ∨
     (i = .reserved ∧ t = raiseAbort s .illegalCommand)) := by
  cases i with
  | evalBcn pc npc =>
    obtain ⟨hf, rfl⟩ := accept_eq_next.1 h
    exact ⟨hf, .inl ⟨pc, npc, rfl, rfl⟩⟩
  | evalSkip =>
    obtain ⟨hf, rfl⟩ := accept_eq_next.1 h
    exact ⟨hf, .inr (.inl ⟨rfl, rfl⟩)⟩
  | predict pc =>
    obtain ⟨hf, rfl⟩ := accept_eq_next.1 h
    exact ⟨hf, .inr (.inr (.inl ⟨pc, rfl, rfl⟩))⟩
  | update pc b =>
    obtain ⟨hf, rfl⟩ := accept_eq_next.1 h
    exact ⟨hf, .inr (.inr (.inr (.inl ⟨pc, b, rfl, rfl⟩)))⟩
  | reserved =>
    obtain ⟨hf, rfl⟩ := accept_eq_next.1 h
    exact ⟨hf, .inr (.inr (.inr (.inr ⟨rfl, rfl⟩)))⟩

/-- In a running state every command has a next state, the one its meaning gives; in a faulted one none has. -/
theorem accept_running {s : State} (h : s.fault = false) (t : State) : accept s t = .next t :=
  accept_eq_next.2 ⟨h, rfl⟩

theorem accept_faulted {s : State} (h : s.fault = true) (t : State) : accept s t = .fault .notAccepted := by
  simp [accept, h]

/-- What the host does later is nothing to a command: its outcome carries the input list unchanged. -/
theorem exec_input (i : Instr) (s : State) (x : List HostEvent) :
    exec i { s with input := x } =
      match exec i s with
      | .next t => .next { t with input := x }
      | .fault r => .fault r
      | .refused r => .refused r := by
  cases i <;>
    simp only [exec, execEvalBcn, execEvalSkip, execPredict, execUpdate, execReserved, accept] <;> split <;> rfl

/-- The inversion of `step`: nothing offered, an idle event, a command or a reset edge. -/
theorem step_next_cases {s t : State} (h : step s = .next t) :
    (s.input = [] ∧ t = s) ∨
    (∃ rest, s.input = .idle :: rest ∧ t = { s with input := rest }) ∨
    (∃ w rest, s.input = .command w :: rest ∧ exec (decode w) { s with input := rest } = .next t) ∨
    (∃ o rest, s.input = .reset o :: rest ∧ t = applyReset { s with input := rest }) := by
  unfold step takeEvent at h
  cases hin : s.input with
  | nil => simp only [hin] at h; exact .inl ⟨rfl, by simpa using h.symm⟩
  | cons e rest =>
    simp only [hin] at h
    cases e with
    | idle => exact .inr (.inl ⟨rest, rfl, by simpa using h.symm⟩)
    | command w => exact .inr (.inr (.inl ⟨w, rest, rfl, h⟩))
    | reset o => exact .inr (.inr (.inr ⟨o, rest, rfl, by simpa using h.symm⟩))

end Sys2Proof.Machine
end

