-- ==== Sys2Proof/Laws/Answers.lean ====
section
/-!
SUPPORT. The response list after every named update, and a run of commands from a faulted state.
-/

namespace Sys2Proof.Machine

variable (s : State)

@[simp] theorem respond_answers (r : Rsp s.cfg.p) : (respond s r).answers = s.answers ++ [r.plain] :=
  List.map_append

@[simp] theorem respond_rsps_length (r : Rsp s.cfg.p) : (respond s r).rsps.length = s.rsps.length + 1 :=
  List.length_append

@[simp] theorem doUpdate_answers (i : BitVec s.cfg.p) (t : Bool) : (doUpdate s i t).answers = s.answers := rfl

@[simp] theorem countEvent_answers (mis : Bool) : (countEvent s mis).answers = s.answers := rfl

@[simp] theorem raiseAbort_answers (cause : AbortCause) : (raiseAbort s cause).answers = s.answers := rfl

@[simp] theorem answers_length : s.answers.length = s.rsps.length := List.length_map _

/-- A run of at least one command from a faulted state has no next state: `accept` lets none through. -/
theorem runCommands_faulted {s : State} (h : s.fault = true) {ws : List CmdWord} (hw : ws ≠ []) (t : State) :
    runCommands ws s ≠ .next t := by
  obtain ⟨w, rest, rfl⟩ := List.exists_cons_of_ne_nil hw
  unfold runCommands
  cases he : exec (decode w) s with
  | next u => have := (exec_next_cases he).1; simp [h] at this
  | fault r => simp
  | refused r => simp

end Sys2Proof.Machine
end

