-- ==== Sys2Proof/Laws/Datapath.lean ====
section
/-!
SUPPORT. The bit-level laws of the datapath functions: the bits of the index, of a shifted history and of an entry
address.
-/

namespace Sys2Proof.Machine

/-- Bit `k` of the index is PC bit `k + 2`. -/
theorem idx_getLsbD (c : Cfg) (pc : Pc) (k : Nat) :
    (idx c pc).getLsbD k = (decide (k < c.p) && pc.getLsbD (2 + k)) := by
  simp [idx]

/-- Bit 0 of a shifted history is the outcome; every other bit is the old bit below it. -/
theorem ghrShift_getLsbD (m : Nat) (g : BitVec m) (t : Bool) (k : Nat) :
    (ghrShift m g t).getLsbD k = (decide (k < m) && if k = 0 then t else g.getLsbD (k - 1)) := by
  cases k with
  | zero => simp [ghrShift]
  | succ k =>
    simp only [ghrShift, BitVec.getLsbD_or, BitVec.getLsbD_shiftLeft, BitVec.getLsbD_setWidth]
    have h1 : (BitVec.ofBool t).getLsbD (k + 1) = false := BitVec.getLsbD_of_ge _ _ (by omega)
    simp

/-- Every entry address is in range: its type has `p + m` bits. -/
theorem entryAddr_lt (c : Cfg) (i : BitVec c.p) (g : BitVec c.m) : (entryAddr c i g).toNat < c.numEntries :=
  (entryAddr c i g).isLt

end Sys2Proof.Machine
end

