-- ==== Sys2Proof/Laws/Encoding.lean ====
section
/-!
SUPPORT. The bits of a packed command word, and its fields.
-/

namespace Sys2Proof

variable (op : BitVec 2) (k t : Bool) (pc npc : Pc)

/-- The bits of a packed word, field by field (R81). -/
theorem packWord_getLsbD (j : Nat) :
    (packWord op k t pc npc).getLsbD j =
      if j < 32 then npc.getLsbD j else if j < 64 then pc.getLsbD (j - 32)
      else if j = 64 then t else if j = 65 then k else op.getLsbD (j - 66) := by
  change BitVec.getLsbD (w := 2 + 1 + 1 + 32 + 32)
    (op ++ BitVec.ofBool k ++ BitVec.ofBool t ++ pc ++ npc) j = _
  simp only [BitVec.getLsbD_append]
  by_cases h1 : j < 32
  · simp [h1]
  by_cases h2 : j < 64
  · simp [h1, h2, show j - 32 < 32 by omega]
  by_cases h3 : j = 64
  · subst h3; simp
  by_cases h4 : j = 65
  · subst h4; simp
  · simp [h1, h2, h3, h4, show ¬ j - 32 < 32 by omega, show ¬ j - 32 - 32 < 1 by omega,
      show ¬ j - 32 - 32 - 1 < 1 by omega, show j - 32 - 32 - 1 - 1 = j - 66 by omega]

@[simp] theorem packWord_op : CmdWord.op (packWord op k t pc npc) = op := by
  apply BitVec.eq_of_getLsbD_eq
  intro j hj
  simp only [CmdWord.op, BitVec.getLsbD_extractLsb', packWord_getLsbD]
  rw [if_neg (by omega), if_neg (by omega), if_neg (by omega), if_neg (by omega)]
  simp [hj]

@[simp] theorem packWord_kind : CmdWord.kind (packWord op k t pc npc) = k := by
  rw [CmdWord.kind, packWord_getLsbD]; rfl

@[simp] theorem packWord_taken : CmdWord.taken (packWord op k t pc npc) = t := by
  rw [CmdWord.taken, packWord_getLsbD]; rfl

@[simp] theorem packWord_pc : CmdWord.pc (packWord op k t pc npc) = pc := by
  apply BitVec.eq_of_getLsbD_eq
  intro j hj
  simp only [CmdWord.pc, BitVec.getLsbD_extractLsb', packWord_getLsbD]
  rw [if_neg (by omega), if_pos (by omega)]
  simp [hj]

@[simp] theorem packWord_npc : CmdWord.npc (packWord op k t pc npc) = npc := by
  apply BitVec.eq_of_getLsbD_eq
  intro j hj
  simp only [CmdWord.npc, BitVec.getLsbD_extractLsb', packWord_getLsbD]
  rw [if_pos (by omega)]
  simp [hj]

/-- Every word is the packing of its fields: R81's fields leave no bit out. -/
theorem packWord_fields (w : CmdWord) :
    packWord (CmdWord.op w) (CmdWord.kind w) (CmdWord.taken w) (CmdWord.pc w) (CmdWord.npc w) = w := by
  apply BitVec.eq_of_getLsbD_eq
  intro j hj
  rw [packWord_getLsbD]
  simp only [CmdWord.op, CmdWord.kind, CmdWord.taken, CmdWord.pc, CmdWord.npc, BitVec.getLsbD_extractLsb']
  split_ifs with h1 h2 h3 h4
  · simp [h1]
  · simp [show j - 32 < 32 by omega, show 32 + (j - 32) = j by omega]
  · rw [h3]
  · rw [h4]
  · simp [show j - 66 < 2 by omega, show 66 + (j - 66) = j by omega]

/-- The three decoded bits of a packed word under EVAL's mask. -/
theorem packWord_and_eval_mask :
    packWord op k t pc npc &&& 0xE0000000000000000#68 = packWord op k false 0#32 0#32 := by
  rw [show 0xE0000000000000000#68 = packWord 3#2 true false 0#32 0#32 by decide]
  apply BitVec.eq_of_getLsbD_eq
  intro j hj
  simp only [BitVec.getLsbD_and, packWord_getLsbD]
  have h : ∀ i < 2, (3#2).getLsbD i = true := by decide
  split_ifs <;> simp
  exact fun _ => h _ (by omega)

/-- The two op bits of a packed word under the other rows' mask. -/
theorem packWord_and_op_mask :
    packWord op k t pc npc &&& 0xC0000000000000000#68 = packWord op false false 0#32 0#32 := by
  rw [show 0xC0000000000000000#68 = packWord 3#2 false false 0#32 0#32 by decide]
  apply BitVec.eq_of_getLsbD_eq
  intro j hj
  simp only [BitVec.getLsbD_and, packWord_getLsbD]
  have h : ∀ i < 2, (3#2).getLsbD i = true := by decide
  split_ifs <;> simp
  exact fun _ => h _ (by omega)

end Sys2Proof
end

