-- ==== Sys2Proof/Laws/PerInstr.lean ====
section
/-!
SUPPORT. A family of statements made per command: its word lies in its own row of the opcode table and in no other.
-/

namespace Sys2Proof.Laws.EncodingRow

open Sys2Proof

/-- A row of the opcode table covers the word of `i` exactly when it is the row of `i`'s mnemonic (R83). -/
def Statement (i : Instr) : Prop := ∀ r ∈ opcodeTable, r.covers (encode i) = true ↔ r.mnemonic = i.mnemonic

/-- Whether a row covers a packed word depends on its three decoded bits only. -/
theorem covers_packWord {r : OpcodeRow} (hr : r ∈ opcodeTable) (op : BitVec 2) (k t : Bool) (pc npc : Pc) :
    r.covers (packWord op k t pc npc) = r.covers (packWord op k false 0#32 0#32) := by
  simp only [opcodeTable, List.mem_cons, List.not_mem_nil, or_false] at hr
  rcases hr with rfl | rfl | rfl | rfl | rfl <;>
    simp only [OpcodeRow.covers, packWord_and_eval_mask, packWord_and_op_mask]

theorem evalBcn (pc npc : Pc) : Statement (.evalBcn pc npc) := fun r hr => by
  rw [encode, covers_packWord hr, Instr.mnemonic]; revert r; decide

theorem evalSkip : Statement .evalSkip := by unfold Statement; decide

theorem predict (pc : Pc) : Statement (.predict pc) := fun r hr => by
  rw [encode, covers_packWord hr, Instr.mnemonic]; revert r; decide

theorem update (pc : Pc) (t : Bool) : Statement (.update pc t) := fun r hr => by
  rw [encode, covers_packWord hr, Instr.mnemonic]; revert r; decide

theorem reserved : Statement .reserved := by unfold Statement; decide

end Sys2Proof.Laws.EncodingRow
end

