-- ==== Sys2Proof/Tests/Slice0.lean ====
section
/-!
SUPPORT. Small tests against the worked examples and derived vectors of spec/95_test_vectors.md (the section is named at
each), the well-formedness smoke, and for every statement with hypotheses a state that meets them.
-/

namespace Sys2Proof.Tests

open Sys2Proof Sys2Proof.Machine

/-! ### Helpers -/

def cfg112 : Cfg := ⟨1, 1, 2, by decide, by decide⟩
def cfg003 : Cfg := ⟨0, 0, 3, by decide, by decide⟩
def cfg301 : Cfg := ⟨3, 0, 1, by decide, by decide⟩
def cfg402 : Cfg := ⟨4, 0, 2, by decide, by decide⟩
def cfgWide : Cfg := ⟨0, 30, 2, by decide, by decide⟩
def cfgTables : Cfg := ⟨1, 2, 2, by decide, by decide⟩

/-- A running state with the given history and tables. -/
def stateOf (c : Cfg) (g : BitVec c.m) (mem : Memory c.n) : State := { State.resetOf c with ghr := g, mem := mem }

/-- A faulted state. -/
def stopped : State := { State.resetOf cfg112 with fault := true, faultCause := 1#2 }

/-- What a test looks at in a next state. -/
structure View where
  mem : List (Nat × Nat)
  ghr : Nat
  reads : Nat
  misp : Nat
  fault : Bool
  cause : Nat
  answers : List (BitVec 2 × Bool × Nat × Bool × Bool × Bool)
deriving DecidableEq, Repr

/-- The view of an outcome, none where the machine does not go on. -/
def view (o : Host.Outcome State Fault Refusal) : Option View :=
  match o with
  | .next t => some ⟨t.mem.map (fun e => (e.1, e.2.toNat)), t.ghr.toNat, t.reads.toNat, t.misp.toNat, t.fault,
      t.faultCause.toNat, t.answers⟩
  | .fault _ => none
  | .refused _ => none

/-! ### Well-formedness -/

/-- spec/95_test_vectors.md 2.12. -/
theorem test_config_wf : RawCfg.wf none ⟨1, 1, 2⟩ = true ∧ RawCfg.wf none ⟨0, 0, 1⟩ = true ∧
    RawCfg.wf (some 30) ⟨0, 30, 2⟩ = true := by decide
theorem test_config_refuses_zero_width : RawCfg.wf none ⟨4, 4, 0⟩ = false := by decide
theorem test_config_refuses_wide_index : RawCfg.wf none ⟨4, 31, 2⟩ = false := by decide
theorem test_config_refuses_large_storage : RawCfg.wf (some 39) ⟨20, 20, 2⟩ = false := by decide
theorem test_build_errors : (RawCfg.build none ⟨4, 4, 0⟩ matches .error .counterWidthZero) = true ∧
    (RawCfg.build none ⟨4, 31, 2⟩ matches .error .indexTooWide) = true ∧
    (RawCfg.build (some 39) ⟨20, 20, 2⟩ matches .error .storageTooLarge) = true := by decide
theorem test_line_refuses_wide_number : AsmLine.wf (.evalBcn 0x100000000 0) = false ∧
    AsmLine.wf (.evalBcn 0 0x100000000) = false ∧ AsmLine.wf (.evalSkip 0x100000000 0) = false ∧
    AsmLine.wf (.evalSkip 0 0x100000000) = false ∧ AsmLine.wf (.predict 0x100000000) = false ∧
    AsmLine.wf (.updateT 0x100000000) = false ∧ AsmLine.wf (.updateN 0x100000000) = false := by decide
theorem test_line_of_wide_number_has_no_word : AsmLine.assemble (.predict 0x100000000) = none := by decide

/-! ### Decoding (spec/95_test_vectors.md 2.6, words written from 30_encoding.md R81) -/

theorem test_decode_evalSkip : decode 0x00000000000000000#68 = .evalSkip := by decide
theorem test_decode_evalSkip_ignores : decode 0x1123456789ABCDEF0#68 = .evalSkip := by decide
theorem test_decode_evalBcn : decode 0x20000000400000010#68 = .evalBcn 0x4#32 0x10#32 := by decide
theorem test_decode_evalBcn_ignores : decode 0x30000000400000010#68 = .evalBcn 0x4#32 0x10#32 := by decide
theorem test_decode_predict : decode 0x40000010000000000#68 = .predict 0x100#32 := by decide
theorem test_decode_predict_ignores : decode 0x700000100FFFFFFFF#68 = .predict 0x100#32 := by decide
theorem test_decode_update_not_taken : decode 0x80000000400000000#68 = .update 0x4#32 false := by decide
theorem test_decode_update_taken : decode 0x90000000400000000#68 = .update 0x4#32 true := by decide
theorem test_decode_update_ignores : decode 0xB00000004DEADBEEF#68 = .update 0x4#32 true := by decide
theorem test_decode_reserved : decode 0xC0000000000000000#68 = .reserved := by decide
theorem test_decode_reserved_all_ones : decode 0xFFFFFFFFFFFFFFFFF#68 = .reserved := by decide
/-- EVAL.BCN at pc 1, npc 2, bit by bit: op 00, c 1, t 0, then the two PCs. -/
theorem test_decode_evalBcn_bits :
    decode 0b00100000000000000000000000000000000100000000000000000000000000000010#68 = .evalBcn 1#32 2#32 := by decide
theorem test_decodeTableWord : decodeTableWord 68 0x20000000400000010 = some (.evalBcn 0x4#32 0x10#32) := by decide
theorem test_decodeTableWord_bytes : decodeTableWord 72 0xC0000000000000000 = some .reserved := by decide
theorem test_decodeTableWord_too_wide : decodeTableWord 72 0x100000000000000000 = none := by decide
/-- The encodings of programs P1, P3 and P4 (spec/95_test_vectors.md section 3). -/
theorem test_encode : encode (.evalBcn 0x4#32 0x10#32) = 0x20000000400000010#68 ∧
    encode (.predict 0x100#32) = 0x40000010000000000#68 ∧ encode (.update 0x4#32 true) = 0x90000000400000000#68 ∧
    encode .evalSkip = 0x00000000000000000#68 ∧ encode .reserved = 0xC0000000000000000#68 := by decide
/-- 30_encoding.md R95: the line `BCN 4 16`; program P2, command 4 for the skip form. -/
theorem test_assemble_trace : TraceEvent.toAsm ⟨"BCN", 4, 16⟩ = .evalBcn 4 16 ∧
    AsmLine.assemble (.evalBcn 4 16) = some 0x20000000400000010#68 ∧
    AsmLine.assemble (.evalSkip 0x44 0x48) = some 0x00000004400000048#68 := by decide

/-! ### Datapath functions (spec/95_test_vectors.md 2.1 to 2.5) -/

theorem test_idx : (idx cfgTables 0x3#32).toNat = 0 ∧ (idx cfgTables 0x4#32).toNat = 1 ∧
    (idx cfgTables 0x7#32).toNat = 1 ∧ (idx cfgTables 0x10#32).toNat = 0 ∧ (idx cfgTables 0x1C#32).toNat = 3 ∧
    (idx cfg402 0xFFFFFFFF#32).toNat = 0 := by decide
theorem test_idx_widest : (idx cfgWide 0xFFFFFFFF#32).toNat = 0x3FFFFFFF ∧
    (idx cfgWide 0x80000000#32).toNat = 0x20000000 := by decide
theorem test_inferTaken : inferTaken 0#32 4#32 = false ∧ inferTaken 0#32 8#32 = true ∧ inferTaken 8#32 4#32 = true ∧
    inferTaken 4#32 4#32 = true ∧ inferTaken 5#32 9#32 = false ∧ inferTaken 5#32 8#32 = true ∧
    inferTaken 0xFFFFFFFC#32 0#32 = false ∧ inferTaken 0xFFFFFFFC#32 4#32 = true ∧
    inferTaken 0xFFFFFFFF#32 3#32 = false := by decide
theorem test_predBit : predBit cfg112 1#2 = false ∧ predBit cfg112 2#2 = true ∧ predBit cfg003 3#3 = false ∧
    predBit cfg003 4#3 = true ∧ predBit cfg301 1#1 = true := by decide
theorem test_satUpdate : satUpdate 2 0#2 false = 0#2 ∧ satUpdate 2 1#2 true = 2#2 ∧ satUpdate 2 3#2 true = 3#2 ∧
    satUpdate 2 3#2 false = 2#2 ∧ satUpdate 1 1#1 true = 1#1 ∧ satUpdate 8 255#8 true = 255#8 ∧
    satUpdate 8 0#8 false = 0#8 ∧ satUpdate 3 7#3 false = 6#3 := by decide
theorem test_ghrShift : ghrShift 0 0#0 true = 0#0 ∧ ghrShift 1 1#1 false = 0#1 ∧
    ghrShift 3 0b101#3 true = 0b011#3 ∧ ghrShift 4 0b1011#4 true = 0b0111#4 ∧
    ghrShift 4 0b1111#4 false = 0b1110#4 := by decide

/-! ### Commands, one step each -/

/-- Program P1, event 2: misprediction; entry 2 becomes 1, GHR 1, READS 2, MISP 1. -/
theorem test_evalBcn_mispredicts : view (exec (.evalBcn 4#32 16#32) { stateOf cfg112 0#1 [] with reads := 1#64 }) =
    some ⟨[(2, 1)], 1, 2, 1, false, 0, [(0#2, false, 1, false, true, true)]⟩ := by decide
/-- Program P2, event 7's shape and the wrap of 2.10: at READS 2^64 - 1, counter 3 predicts taken, the branch falls
through. -/
theorem test_evalBcn_reads_wraps :
    view (exec (.evalBcn 0x48#32 0x4C#32) { stateOf cfg112 1#1 [(1, 3#2)] with reads := 0xFFFFFFFFFFFFFFFF#64 }) =
    some ⟨[(1, 2)], 0, 0, 1, false, 0, [(0#2, false, 0, true, false, true)]⟩ := by decide
/-- Program P2, command 4. -/
theorem test_evalSkip_only_responds : view (exec .evalSkip (stateOf cfg112 1#1 [(3, 2#2)])) =
    some ⟨[(3, 2)], 1, 0, 0, false, 0, [(0#2, true, 0, false, false, false)]⟩ := by decide
/-- Section 2.7: cfg (0, 0, 3), the counter at 4. -/
theorem test_predict_taken : view (exec (.predict 0x100#32) (stateOf cfg003 0#0 [(0, 4#3)])) =
    some ⟨[(0, 4)], 0, 0, 0, false, 0, [(1#2, false, 0, true, false, false)]⟩ := by decide
/-- Section 2.7: cfg (1, 1, 2), GHR 1; entry 3 is 0. -/
theorem test_predict_uses_row : view (exec (.predict 0x14#32) (stateOf cfg112 1#1 [(0, 1#2), (1, 1#2)])) =
    some ⟨[(0, 1), (1, 1)], 1, 0, 0, false, 0, [(1#2, false, 1, false, false, false)]⟩ := by decide
/-- Section 2.8: `UPDATE 0x4, T` from reset. -/
theorem test_update_taken : view (exec (.update 4#32 true) (stateOf cfg112 0#1 [])) =
    some ⟨[(2, 1)], 1, 0, 0, false, 0, [(2#2, false, 1, false, true, false)]⟩ := by decide
/-- Program P6, command 5: entry 11 becomes 1, GHR 0b1011 becomes 0b0111. -/
theorem test_update_shifts_history :
    view (exec (.update 0#32 true) (stateOf cfg402 0b1011#4 [(0, 1#2), (2, 1#2), (5, 1#2)])) =
    some ⟨[(0, 1), (2, 1), (5, 1), (11, 1)], 7, 0, 0, false, 0, [(2#2, false, 0, false, true, false)]⟩ := by decide
/-- Program P4, command 4: the abort keeps the predictor and answers nothing. -/
theorem test_reserved_aborts :
    view (exec .reserved { stateOf cfg112 1#1 [(0, 1#2), (1, 1#2)] with reads := 2#64, misp := 2#64 }) =
    some ⟨[(0, 1), (1, 1)], 1, 2, 2, true, 1, []⟩ := by decide
/-- Program P4, command 5: not accepted. -/
theorem test_faulted_accepts_nothing : view (step (stopped.offer 0x20000000000000004#68)) = none := by decide
/-- Section 2.11: reset after an abort. -/
theorem test_reset_clears_abort : view (step { stopped with reads := 2#64, input := [.reset none] }) =
    some ⟨[], 0, 0, 0, false, 0, []⟩ := by decide
/-- From reset, the word placed by `withFetchWord` is the first command run. -/
theorem test_withFetchWord_runs : view (step (State.reset.withFetchWord 68 0x90000000400000000)) =
    some ⟨[(2, 1)], 1, 0, 0, false, 0, [(2#2, false, 1, false, true, false)]⟩ := by decide
/-- Section 2.10, source S7. -/
theorem test_rate : rate 3#64 1#64 = 100 / 3 ∧ rate 0#64 0#64 = 0 := by
  have h : ¬ (3#64 : Count) = 0#64 := by decide
  exact ⟨by rw [rate, if_neg h]; norm_num, by simp [rate]⟩
/-- 10_state.md R30. -/
theorem test_ports : StatusPort.number .cfgN = 6 ∧ stopped.port .faultCause = 1 ∧ stopped.port .cfgN = 2 := by decide

/-! ### Witnesses: for every statement with hypotheses, one state and operands that meet them -/

theorem witness_DecodeReadsFieldPositions :
    (0x20000000000000000#68).toNat / 2 ^ 66 = 0 ∧ (0x20000000000000000#68).toNat / 2 ^ 65 % 2 = 1 ∧
    (0x1FFFFFFFFFFFFFFFF#68).toNat / 2 ^ 66 = 0 ∧ (0x1FFFFFFFFFFFFFFFF#68).toNat / 2 ^ 65 % 2 = 0 ∧
    (0x7FFFFFFFFFFFFFFFF#68).toNat / 2 ^ 66 = 1 ∧ (0x80000000000000000#68).toNat / 2 ^ 66 = 2 ∧
    (0xFFFFFFFFFFFFFFFFF#68).toNat / 2 ^ 66 = 3 := by decide
theorem witness_DecodeEncodeRoundTrip : Instr.wf .reserved = true := by decide
theorem witness_AssembledLinesDecode : AsmLine.wf (.predict 0xFFFFFFFF) = true ∧
    AsmLine.assemble (.predict 0xFFFFFFFF) = some 0x4FFFFFFFF00000000#68 := by decide
theorem witness_TraceEventsAssembleToEval :
    (TraceEvent.toAsm ⟨"BCN", 0, 4⟩).assemble = some 0x20000000000000004#68 ∧
    (TraceEvent.toAsm ⟨"CALL", 0, 4⟩).assemble = some 0x00000000000000004#68 := by decide
theorem witness_StepRunsOfferedCommand :
    ((State.reset.offer 0xC0000000000000000#68).input = .command 0xC0000000000000000#68 :: []) ∧
    (decode 0xC0000000000000000#68).wf = true := by decide
theorem witness_StepIdleKeepsState : State.reset.input = [] ∧
    ({ State.reset with input := [.idle] } : State).input = .idle :: [] := by decide
theorem witness_CommandListConsumedToFirstReserved : State.reset.running ∧
    (∀ w ∈ [0x40000000000000000#68], isReservedWord w = false) ∧ isReservedWord 0xC0000000000000000#68 = true :=
  ⟨rfl, by simpa using (by decide : isReservedWord 0x40000000000000000#68 = false), by decide⟩
/-- Both clauses on what follows the reserved word. -/
theorem witness_CommandListConsumedToFirstReserved_post :
    ([] : List CmdWord) = [] ∧ [0x40000000000000000#68] ≠ ([] : List CmdWord) := ⟨rfl, List.cons_ne_nil _ _⟩
theorem witness_FaultedMachineAcceptsNoCommand : stopped.fault = true := by decide
theorem witness_ResetEdgeResetsEverything :
    ({ stopped with input := [.reset (some 0#68)] } : State).input = .reset (some 0#68) :: [] := by decide
theorem witness_ResetVoidsEarlierCommand : ∃ t, exec (.update 4#32 true) State.reset = .next t := ⟨_, rfl⟩
theorem witness_PcsWithSameIndexBitsShareEntry :
    ∀ k < (stateOf cfg112 0#1 []).cfg.p, (0x4#32).getLsbD (k + 2) = (0xFFFFFFFF#32).getLsbD (k + 2) := by decide
theorem witness_PredictionBitIsTopBit : cfg301.n = 1 ∧ ∃ ctr : BitVec cfg301.n, ctr = 0#cfg301.n := ⟨rfl, _, rfl⟩
theorem witness_SaturatingUpdateClamps : cfg301.n = 1 := by decide
theorem witness_HistoryShiftFormula_m0 : cfg003.m = 0 := by decide
theorem witness_HistoryShiftFormula_m1 : cfg112.m = 1 := by decide
theorem witness_HistoryHoldsLastOutcomes : (3 : Nat) < 4 := by decide
theorem witness_PhtWriteChangesOneEntry :
    Memory.wf (stateOf cfg112 0#1 [(0, 1#2), (3, 3#2)]).cfg.numEntries (stateOf cfg112 0#1 [(0, 1#2), (3, 3#2)]).mem := by
  decide
theorem witness_UpdateBodyWritesThenShifts :
    Memory.wf (stateOf cfg112 1#1 [(3, 1#2)]).cfg.numEntries (stateOf cfg112 1#1 [(3, 1#2)]).mem := by decide
theorem witness_PredictAnswersTopBitOfCounter : (stateOf cfg112 1#1 [(3, 2#2)]).running := by decide
/-- A counter at 1 that a not-taken update brings back to the reset value. -/
theorem witness_UpdateTrainsOneCounter : (stateOf cfg112 1#1 [(3, 1#2)]).running ∧
    Memory.wf (stateOf cfg112 1#1 [(3, 1#2)]).cfg.numEntries (stateOf cfg112 1#1 [(3, 1#2)]).mem := by decide
theorem witness_EvalBcnPredictsThenTrainsAndCounts : (stateOf cfg112 1#1 [(3, 3#2)]).running ∧
    Memory.wf (stateOf cfg112 1#1 [(3, 3#2)]).cfg.numEntries (stateOf cfg112 1#1 [(3, 3#2)]).mem := by decide
theorem witness_EvalSkipOnlyResponds : (stateOf cfg112 1#1 []).running := by decide
theorem witness_ReservedOpAborts : (stateOf cfg112 1#1 [(3, 3#2)]).running := by decide
theorem witness_PredictAndSkipFrame :
    (∃ t, exec (.predict 4#32) (stateOf cfg112 1#1 [(3, 3#2)]) = .next t) ∧
    ∃ t, exec .evalSkip (stateOf cfg112 1#1 [(3, 3#2)]) = .next t := ⟨⟨_, rfl⟩, ⟨_, rfl⟩⟩
theorem witness_UpdateFrame : ∃ t, exec (.update 4#32 false) (stateOf cfg112 1#1 [(3, 3#2)]) = .next t := ⟨_, rfl⟩
theorem witness_EvalBcnFrame : ∃ t, exec (.evalBcn 4#32 8#32) (stateOf cfg112 1#1 [(3, 3#2)]) = .next t := ⟨_, rfl⟩
theorem witness_ReservedOpFrame : ∃ t, exec .reserved (stateOf cfg112 1#1 [(3, 3#2)]) = .next t := ⟨_, rfl⟩
theorem witness_StepKeepsInvariant : State.reset.Inv ∧
    ∃ t, step (State.reset.offer 0x90000000400000000#68) = .next t := ⟨by decide, _, rfl⟩
theorem witness_StepKeepsConfiguration : ∃ t, step (State.reset.offer 0x90000000400000000#68) = .next t := ⟨_, rfl⟩
theorem witness_StatisticsCountResponses : (State.reset.offer 0x20000000400000010#68).StatsConsistent ∧
    ∃ t, step (State.reset.offer 0x20000000400000010#68) = .next t := ⟨by decide, _, rfl⟩
theorem witness_MispAtMostReads : (State.reset.offer 0x20000000400000010#68).StatsConsistent ∧
    ∃ t, step (State.reset.offer 0x20000000400000010#68) = .next t ∧ t.rsps.length < 2 ^ 64 :=
  ⟨by decide, _, rfl, by decide⟩
theorem witness_GhrRecordsOutcomes : (State.reset.offer 0x90000000400000000#68).HistoryConsistent ∧
    ∃ t, step (State.reset.offer 0x90000000400000000#68) = .next t :=
  ⟨fun k hk => by simp [outcomes, State.reset], _, rfl⟩
theorem witness_ResponsesDetermineState :
    (State.reset.offer 0x90000000400000000#68).predictor =
      replay (State.reset.offer 0x90000000400000000#68).cfg (State.reset.offer 0x90000000400000000#68).rsps ∧
    ∃ t, step (State.reset.offer 0x90000000400000000#68) = .next t := ⟨rfl, _, rfl⟩
theorem witness_ResponsesKeepTheirShape : (∀ r ∈ (State.reset.offer 0x40000010000000000#68).rsps, r.wf) ∧
    ∃ t, step (State.reset.offer 0x40000010000000000#68) = .next t := ⟨by decide, _, rfl⟩
theorem witness_OneResponsePerCommand : (∃ t, exec (.predict 4#32) State.reset = .next t) ∧
    (∃ t, exec .reserved State.reset = .next t) ∧ Instr.predict 4#32 ≠ .reserved := ⟨⟨_, rfl⟩, ⟨_, rfl⟩, by decide⟩
theorem witness_OnlyReservedOpRaisesFault :
    ∃ t, step (State.reset.offer 0xC0000000000000000#68) = .next t ∧
      (State.reset.offer 0xC0000000000000000#68).fault = false ∧ t.fault = true := ⟨_, rfl, rfl, rfl⟩
theorem witness_FaultHoldsUntilReset : stopped.fault = true ∧ (∃ t, step stopped = .next t) ∧
    ∃ t, step { stopped with input := [.reset none] } = .next t := ⟨rfl, ⟨_, rfl⟩, ⟨_, rfl⟩⟩
theorem witness_OnlyTrainingOrResetChangesPredictor :
    ∃ t, step (State.reset.offer 0x90000000400000000#68) = .next t ∧
      t.ghr.toNat ≠ (State.reset.offer 0x90000000400000000#68).ghr.toNat := ⟨_, rfl, by decide⟩
theorem witness_CommandMovesAtMostOneCounter : (stateOf cfg112 1#1 [(3, 3#2)]).Inv ∧
    (∃ t, exec (.update 4#32 false) (stateOf cfg112 1#1 [(3, 3#2)]) = .next t) ∧
    (∃ t, exec (.evalBcn 4#32 8#32) (stateOf cfg112 1#1 [(3, 3#2)]) = .next t) ∧
    (∃ t, exec .evalSkip (stateOf cfg112 1#1 [(3, 3#2)]) = .next t) ∧
    (∃ t, exec (.predict 4#32) (stateOf cfg112 1#1 [(3, 3#2)]) = .next t) ∧
    ∃ t, exec .reserved (stateOf cfg112 1#1 [(3, 3#2)]) = .next t :=
  ⟨by decide, ⟨_, rfl⟩, ⟨_, rfl⟩, ⟨_, rfl⟩, ⟨_, rfl⟩, ⟨_, rfl⟩⟩
theorem witness_OnlyEvaluationsAreCounted : ∃ t, exec (.evalBcn 4#32 16#32) State.reset = .next t := ⟨_, rfl⟩
theorem witness_PredictTwiceAnswersSame : (stateOf cfg112 1#1 [(3, 2#2)]).running := by decide
theorem witness_EvalIsPredictThenUpdate : (stateOf cfg112 1#1 [(3, 3#2)]).running := by decide
theorem witness_PredictAndSkipInsertable : quiet (decode 0x40000000400000000#68) = true ∧
    ∃ t, runCommands ([0x90000000400000000#68] ++ 0x40000000400000000#68 :: [0x80000000400000000#68]) State.reset =
      .next t := ⟨by decide, _, rfl⟩
/-- The same with an EVAL.SKIP as the inserted command. -/
theorem witness_PredictAndSkipInsertable_skip : quiet (decode 0x00000004400000048#68) = true ∧
    ∃ t, runCommands ([0x90000000400000000#68] ++ 0x00000004400000048#68 :: [0x80000000400000000#68]) State.reset =
      .next t := ⟨by decide, _, rfl⟩
/-- At the platform's limit, and at the widest index. -/
theorem witness_InstanceBuiltIffConfigurationWellFormed :
    (∃ c : Cfg, RawCfg.build (some 2) ⟨1, 1, 2⟩ = .ok c) ∧ RawCfg.wf (some 2) ⟨1, 1, 2⟩ = true ∧
    RawCfg.wf none ⟨0, 30, 1⟩ = true := ⟨⟨_, rfl⟩, by decide, by decide⟩
theorem witness_RateIsPercentage : (0#64 : Count) = 0#64 ∧ (3#64 : Count) ≠ 0#64 ∧
    (1#64 : Count).toNat ≤ (3#64 : Count).toNat := by decide

end Sys2Proof.Tests
end

section
/-!
The datapath functions as arithmetic on numbers, and the statements of spec/40_datapath_functions.md that follow.
-/

namespace Sys2Proof.Machine

/-! ### The index hash (R110) -/

/-- Selecting PC bits `p+1` down to 2 is shifting and reducing modulo `2^p`. -/
theorem idx_toNat (c : Cfg) (pc : Pc) : (idx c pc).toNat = (pc.toNat >>> 2) % 2 ^ c.p := by
  simp [idx]

/-- Bits of the PC above bit `p + 1` do not reach the index. -/
theorem idx_toNat_eq_mod_div (c : Cfg) (pc : Pc) : (idx c pc).toNat = pc.toNat % 2 ^ (c.p + 2) / 4 := by
  rw [idx_toNat, Nat.shiftRight_eq_div_pow, Nat.pow_add, Nat.mul_comm, Nat.mod_mul_right_div_self]

/-- PCs that agree modulo `2^(p+2)` have one index. -/
theorem idx_eq_of_mod_eq (c : Cfg) {pc pc' : Pc} (h : pc.toNat % 2 ^ (c.p + 2) = pc'.toNat % 2 ^ (c.p + 2)) :
    idx c pc = idx c pc' :=
  BitVec.eq_of_toNat_eq (by rw [idx_toNat_eq_mod_div, idx_toNat_eq_mod_div, h])

/-- The period `2^(p+2)` divides `2^32` because `p ≤ 30` (R8 (b)), so the wrap-around of the 32-bit sum is harmless. -/
theorem add_period_toNat_mod (c : Cfg) (pc : Pc) :
    (pc + BitVec.ofNat 32 (2 ^ (c.p + 2))).toNat % 2 ^ (c.p + 2) = pc.toNat % 2 ^ (c.p + 2) := by
  have hdvd : 2 ^ (c.p + 2) ∣ 2 ^ 32 := Nat.pow_dvd_pow 2 (by have := c.p_le; omega)
  rw [BitVec.toNat_add, BitVec.toNat_ofNat, Nat.add_mod_mod, Nat.mod_mod_of_dvd _ hdvd, Nat.add_mod_right]

/-! ### The prediction bit (R112) -/

/-- Half the counter range, doubled: `n ≥ 1` (R8 (a)). -/
theorem two_mul_half_range (c : Cfg) : 2 * 2 ^ (c.n - 1) = 2 ^ c.n :=
  mul_pow_sub_one (Nat.ne_of_gt c.n_pos) 2

/-- The top bit is a comparison with the threshold `2^(n-1)`. -/
theorem predBit_eq_decide (c : Cfg) (ctr : BitVec c.n) : predBit c ctr = decide (2 ^ (c.n - 1) ≤ ctr.toNat) := by
  rw [predBit, ← BitVec.msb_eq_getLsbD_last, BitVec.msb_eq_decide]

theorem predBit_eq_true_iff (c : Cfg) (ctr : BitVec c.n) : predBit c ctr = true ↔ 2 ^ (c.n - 1) ≤ ctr.toNat := by
  rw [predBit_eq_decide, decide_eq_true_iff]

/-- Above the top bit there is nothing, so shifting down to it leaves that bit. -/
theorem predBit_toNat (c : Cfg) (ctr : BitVec c.n) : (predBit c ctr).toNat = ctr.toNat >>> (c.n - 1) := by
  have hlt : ctr.toNat < 2 * 2 ^ (c.n - 1) := two_mul_half_range c ▸ ctr.isLt
  rw [predBit_eq_decide, Nat.shiftRight_eq_div_pow]
  by_cases h : 2 ^ (c.n - 1) ≤ ctr.toNat
  · rw [Nat.div_eq_of_lt_le (k := 1) (by omega) (by omega), decide_eq_true h, Bool.toNat_true]
  · rw [Nat.div_eq_of_lt (by omega), decide_eq_false h, Bool.toNat_false]

/-! ### The saturating update (R113) -/

/-- Up one step, except at the upper rail. -/
theorem satUpdate_true_toNat (n : Nat) (v : BitVec n) :
    (satUpdate n v true).toNat = if v.toNat = 2 ^ n - 1 then v.toNat else v.toNat + 1 := by
  have hrail : v = BitVec.allOnes n ↔ v.toNat = 2 ^ n - 1 := by rw [BitVec.toNat_eq, BitVec.toNat_allOnes]
  simp only [satUpdate, if_true, hrail]
  split
  next => rfl
  next hne =>
    have hlt : v.toNat + 1 < 2 ^ n := by have := v.isLt; omega
    rw [BitVec.toNat_add, BitVec.toNat_ofNat, Nat.add_mod_mod, Nat.mod_eq_of_lt hlt]

/-- Down one step, except at the lower rail. -/
theorem satUpdate_false_toNat (n : Nat) (v : BitVec n) :
    (satUpdate n v false).toNat = if v.toNat = 0 then 0 else v.toNat - 1 := by
  have hrail : v = 0#n ↔ v.toNat = 0 := by rw [BitVec.toNat_eq, BitVec.toNat_zero]
  simp only [satUpdate, Bool.false_eq_true, if_false, hrail]
  split
  next => exact BitVec.toNat_zero
  next hne =>
    have hone : (1#n).toNat = 1 := by
      rw [BitVec.toNat_ofNat, Nat.mod_eq_of_lt (by have := v.isLt; omega)]
    rw [BitVec.toNat_sub_of_le (by rw [BitVec.le_def]; omega), hone]

/-- A one-bit counter holds the last outcome. -/
theorem satUpdate_toNat_of_width_one {n : Nat} (hn : n = 1) (v : BitVec n) (t : Bool) :
    (satUpdate n v t).toNat = t.toNat := by
  subst hn
  have hlt := v.isLt
  cases t with
  | true => rw [satUpdate_true_toNat, Bool.toNat_true]; split <;> omega
  | false => rw [satUpdate_false_toNat, Bool.toNat_false]; split <;> omega

/-- An upward step crosses the threshold `2^(n-1)` only from just below it. -/
theorem predBit_satUpdate_true_ne_iff (c : Cfg) (ctr : BitVec c.n) :
    predBit c (satUpdate c.n ctr true) ≠ predBit c ctr ↔ ctr.toNat = 2 ^ (c.n - 1) - 1 := by
  have hrange := two_mul_half_range c
  have hpos : 0 < 2 ^ (c.n - 1) := Nat.two_pow_pos _
  rw [predBit_eq_decide, predBit_eq_decide, satUpdate_true_toNat, Ne, decide_eq_decide]
  split <;> omega

/-- A downward step crosses the threshold `2^(n-1)` only from the threshold itself. -/
theorem predBit_satUpdate_false_ne_iff (c : Cfg) (ctr : BitVec c.n) :
    predBit c (satUpdate c.n ctr false) ≠ predBit c ctr ↔ ctr.toNat = 2 ^ (c.n - 1) := by
  have hpos : 0 < 2 ^ (c.n - 1) := Nat.two_pow_pos _
  rw [predBit_eq_decide, predBit_eq_decide, satUpdate_false_toNat, Ne, decide_eq_decide]
  split <;> omega

/-! ### The history shift (R114) -/

/-- The shift drops the bits from `m` up: it is `(g << 1) | t` modulo `2^m`. -/
theorem ghrShift_toNat (m : Nat) (g : BitVec m) (t : Bool) :
    (ghrShift m g t).toNat = ((g.toNat <<< 1) ||| t.toNat) % 2 ^ m := by
  rw [ghrShift, BitVec.toNat_or, BitVec.toNat_shiftLeft, BitVec.toNat_setWidth, BitVec.toNat_ofBool,
    Nat.or_mod_two_pow]

/-- A history of no bits holds nothing. -/
theorem ghrShift_toNat_of_width_zero {m : Nat} (hm : m = 0) (g : BitVec m) (t : Bool) : (ghrShift m g t).toNat = 0 := by
  subst hm
  exact BitVec.toNat_of_zero_length rfl _

/-- A history of one bit is the last outcome: bit 0 of a shifted history. -/
theorem ghrShift_toNat_of_width_one {m : Nat} (hm : m = 1) (g : BitVec m) (t : Bool) :
    (ghrShift m g t).toNat = t.toNat := by
  subst hm
  have hbit : ghrShift 1 g t = BitVec.ofBool t := by
    apply BitVec.eq_of_getLsbD_eq
    intro k hk
    obtain rfl : k = 0 := by omega
    rw [ghrShift_getLsbD]
    simp
  rw [hbit, BitVec.toNat_ofBool]

/-! ### The statements -/

/-- Settles O19: the bit selection is a shift and a mask (R110), and the index sees the PC modulo `2^(p+2)` only. -/
theorem indexHashSelectsPcBits : Obligations.IndexHashSelectsPcBits := by
  intro c pc
  refine ⟨?_, (idx c pc).isLt, idx_eq_of_mod_eq c (add_period_toNat_mod c pc)⟩
  rw [idx_toNat, Nat.and_two_pow_sub_one_eq_mod]

/-- Settles O22: the top bit is the comparison with `2^(n-1)` (R112), which a counter at 0 does not meet. -/
theorem predictionBitIsTopBit : Obligations.PredictionBitIsTopBit := by
  intro c ctr
  refine ⟨predBit_toNat c ctr, predBit_eq_true_iff c ctr, ?_, ?_⟩
  · intro hn
    have hbit : c.n - 1 = 0 := by omega
    rw [predBit_toNat, hbit, Nat.shiftRight_zero]
  · intro h0
    rw [predBit, h0, BitVec.getLsbD_zero]

/-- Settles O23: each direction's clamped step (R113), compared with the threshold before and after. -/
theorem saturatingUpdateClamps : Obligations.SaturatingUpdateClamps := by
  intro c ctr
  refine ⟨satUpdate_true_toNat c.n ctr, satUpdate_false_toNat c.n ctr,
    fun t hn => satUpdate_toNat_of_width_one hn ctr t, fun t => ?_⟩
  cases t with
  | true => simpa using predBit_satUpdate_true_ne_iff c ctr
  | false => simpa using predBit_satUpdate_false_ne_iff c ctr

/-- Settles O26: the shift modulo `2^m` is the shift under the mask `2^m - 1` (R114). -/
theorem historyShiftFormula : Obligations.HistoryShiftFormula := by
  intro m g t
  refine ⟨?_, fun hm => ghrShift_toNat_of_width_zero hm g t, fun hm => ghrShift_toNat_of_width_one hm g t,
    (ghrShift m g t).isLt⟩
  rw [ghrShift_toNat, Nat.and_two_pow_sub_one_eq_mod]

end Sys2Proof.Machine
end

section
/-!
The update body (spec/42_update.md): the entry address as a number, and what the PHT reads after the one write.
-/

namespace Sys2Proof.Machine

/-- The layout of R51: `{i, g}` is table `i`, of `2^m` rows, at row `g`. -/
theorem entryAddr_toNat (c : Cfg) (i : BitVec c.p) (g : BitVec c.m) :
    (entryAddr c i g).toNat = i.toNat * 2 ^ c.m + g.toNat := by
  rw [entryAddr, BitVec.toNat_append, ← Nat.shiftLeft_add_eq_or_of_lt g.isLt, Nat.shiftLeft_eq]

/-- The entry the update body writes is at the row of the GHR of before the shift (R141, R207). -/
theorem doUpdate_mem_read_same {s : State} (hwf : Memory.wf s.cfg.numEntries s.mem) (i : BitVec s.cfg.p) (t : Bool) :
    (doUpdate s i t).mem.read (entryAddr s.cfg i s.ghr).toNat =
      satUpdate s.cfg.n (s.mem.read (entryAddr s.cfg i s.ghr).toNat) t :=
  read_write_same hwf _ _

/-- The update body writes no second entry. -/
theorem doUpdate_mem_read_other (s : State) (i : BitVec s.cfg.p) (t : Bool) {b : Nat}
    (hb : b ≠ (entryAddr s.cfg i s.ghr).toNat) : (doUpdate s i t).mem.read b = s.mem.read b :=
  read_write_other _ _ hb

/-- Settles O30: the one PHT write is at `i * 2^m + GHR` with the old GHR (R141), and each register is a field of the
updated state. -/
theorem updateBodyWritesThenShifts : Obligations.UpdateBodyWritesThenShifts := by
  intro s i t hwf a
  have haddr : (entryAddr s.cfg i s.ghr).toNat = a := entryAddr_toNat s.cfg i s.ghr
  refine ⟨?written, fun b hb => doUpdate_mem_read_other s i t (haddr ▸ hb), doUpdate_ghr s i t, doUpdate_reads s i t,
    doUpdate_misp s i t, doUpdate_fault s i t, doUpdate_faultCause s i t, doUpdate_rsps s i t, doUpdate_input s i t⟩
  case written => exact haddr ▸ doUpdate_mem_read_same hwf i t

end Sys2Proof.Machine
end

section
/-!
The command word: decoding packed words and words given as numbers, and the statements of spec/30_encoding.md.
-/

namespace Sys2Proof

/-! ### What a packed word decodes to -/

section
variable (k t : Bool) (pc npc : Pc)

@[simp] theorem decode_packWord_evalBcn : decode (packWord 0#2 true t pc npc) = .evalBcn pc npc := by
  simp [decode]

@[simp] theorem decode_packWord_evalSkip : decode (packWord 0#2 false t pc npc) = .evalSkip := by
  simp [decode]

@[simp] theorem decode_packWord_predict : decode (packWord 1#2 k t pc npc) = .predict pc := by
  simp [decode]

@[simp] theorem decode_packWord_update : decode (packWord 2#2 k t pc npc) = .update pc t := by
  simp [decode]

@[simp] theorem decode_packWord_reserved : decode (packWord 3#2 k t pc npc) = .reserved := by
  simp [decode]

end

theorem decode_encode (i : Instr) : decode (encode i) = i := by
  cases i with
  | evalBcn pc npc => exact decode_packWord_evalBcn false pc npc
  | evalSkip => exact decode_packWord_evalSkip false 0#32 0#32
  | predict pc => exact decode_packWord_predict false false pc 0#32
  | update pc t => exact decode_packWord_update false t pc 0#32
  | reserved => exact decode_packWord_reserved false false 0#32 0#32

/-- The five forms of a word: R83's case split on `op` and, under op 0, the kind bit. -/
theorem word_forms (w : CmdWord) :
    (∃ t pc npc, w = packWord 0#2 true t pc npc) ∨ (∃ t pc npc, w = packWord 0#2 false t pc npc) ∨
    (∃ k t pc npc, w = packWord 1#2 k t pc npc) ∨ (∃ k t pc npc, w = packWord 2#2 k t pc npc) ∨
    (∃ k t pc npc, w = packWord 3#2 k t pc npc) := by
  have hops : ∀ o : BitVec 2, o = 0#2 ∨ o = 1#2 ∨ o = 2#2 ∨ o = 3#2 := by decide
  have hw := packWord_fields w
  rcases hops (CmdWord.op w) with h | h | h | h <;> rw [h] at hw
  · cases hk : CmdWord.kind w with
    | true => rw [hk] at hw; exact .inl ⟨_, _, _, hw.symm⟩
    | false => rw [hk] at hw; exact .inr (.inl ⟨_, _, _, hw.symm⟩)
  · exact .inr (.inr (.inl ⟨_, _, _, _, hw.symm⟩))
  · exact .inr (.inr (.inr (.inl ⟨_, _, _, _, hw.symm⟩)))
  · exact .inr (.inr (.inr (.inr ⟨_, _, _, _, hw.symm⟩)))

theorem decode_eq_reserved_iff (w : CmdWord) : decode w = .reserved ↔ CmdWord.op w = 3#2 := by
  rcases word_forms w with ⟨t, pc, npc, rfl⟩ | ⟨t, pc, npc, rfl⟩ | ⟨k, t, pc, npc, rfl⟩ | ⟨k, t, pc, npc, rfl⟩ |
    ⟨k, t, pc, npc, rfl⟩ <;> simp

/-! ### The fields as arithmetic on the word's number (R81) -/

section
variable (w : CmdWord)

theorem op_toNat : (CmdWord.op w).toNat = w.toNat / 2 ^ 66 := by
  have hlt := w.isLt
  rw [CmdWord.op, BitVec.extractLsb'_toNat, Nat.shiftRight_eq_div_pow, Nat.mod_eq_of_lt (by omega)]

theorem kind_eq : CmdWord.kind w = (w.toNat / 2 ^ 65 % 2 == 1) :=
  Nat.testBit_eq_decide_div_mod_eq

theorem taken_eq : CmdWord.taken w = (w.toNat / 2 ^ 64 % 2 == 1) :=
  Nat.testBit_eq_decide_div_mod_eq

theorem pc_eq : CmdWord.pc w = BitVec.ofNat 32 (w.toNat / 2 ^ 32) := by
  rw [CmdWord.pc, BitVec.extractLsb', Nat.shiftRight_eq_div_pow]

theorem npc_eq : CmdWord.npc w = BitVec.ofNat 32 w.toNat := by
  rw [CmdWord.npc, BitVec.extractLsb', Nat.shiftRight_zero]

end

/-- The op is the two top bits, so it is given by the number's quotient. -/
theorem op_eq_ofNat_iff (w : CmdWord) {o : Nat} (ho : o < 4) :
    CmdWord.op w = BitVec.ofNat 2 o ↔ w.toNat / 2 ^ 66 = o := by
  rw [← BitVec.toNat_inj, op_toNat, BitVec.toNat_ofNat, Nat.mod_eq_of_lt (by omega)]

/-! ### The rows of the opcode table (R83) -/

/-- The table has one row per mnemonic. -/
theorem opcodeTable_row_unique (i : Instr) :
    ∃ r ∈ opcodeTable, r.mnemonic = i.mnemonic ∧ ∀ r' ∈ opcodeTable, r'.mnemonic = i.mnemonic → r' = r := by
  cases i with
  | evalBcn pc npc => rw [Instr.mnemonic]; decide
  | evalSkip => rw [Instr.mnemonic]; decide
  | predict pc => rw [Instr.mnemonic]; decide
  | update pc t => rw [Instr.mnemonic]; decide
  | reserved => rw [Instr.mnemonic]; decide

/-- The word of every command is covered by its own row only. -/
theorem covers_encode_iff (i : Instr) {r : OpcodeRow} (hr : r ∈ opcodeTable) :
    r.covers (encode i) = true ↔ r.mnemonic = i.mnemonic := by
  cases i with
  | evalBcn pc npc => exact Laws.EncodingRow.evalBcn pc npc r hr
  | evalSkip => exact Laws.EncodingRow.evalSkip r hr
  | predict pc => exact Laws.EncodingRow.predict pc r hr
  | update pc t => exact Laws.EncodingRow.update pc t r hr
  | reserved => exact Laws.EncodingRow.reserved r hr

/-- Under an op other than 0 no row looks at the kind bit. -/
theorem covers_kind_irrelevant {r : OpcodeRow} (hr : r ∈ opcodeTable) {op : BitVec 2} (hop : op ≠ 0#2) (k : Bool) :
    r.covers (packWord op k false 0#32 0#32) = r.covers (packWord op false false 0#32 0#32) := by
  revert r op k; decide

/-- No row looks at an ignored field: a word and the encoding of its command have the same rows. -/
theorem covers_encode_decode (w : CmdWord) {r : OpcodeRow} (hr : r ∈ opcodeTable) :
    r.covers (encode (decode w)) = r.covers w := by
  have hcovers := @Laws.EncodingRow.covers_packWord r hr
  have hkind := @covers_kind_irrelevant r hr
  rcases word_forms w with ⟨t, pc, npc, rfl⟩ | ⟨t, pc, npc, rfl⟩ | ⟨k, t, pc, npc, rfl⟩ | ⟨k, t, pc, npc, rfl⟩ |
    ⟨k, t, pc, npc, rfl⟩
  · rw [decode_packWord_evalBcn, encode, hcovers, hcovers _ _ t]
  · rw [decode_packWord_evalSkip, encode, hcovers _ _ t]
  · rw [decode_packWord_predict, encode, hcovers, hcovers _ _ t, hkind (by decide) k]
  · rw [decode_packWord_update, encode, hcovers, hcovers _ _ t pc npc, hkind (by decide) k]
  · rw [decode_packWord_reserved, encode, hcovers _ _ t, hkind (by decide) k]

/-! ### Clearing fields -/

/-- A mask acts on each field alone. -/
theorem packWord_and_packWord (op op' : BitVec 2) (k k' t t' : Bool) (pc pc' npc npc' : Pc) :
    packWord op k t pc npc &&& packWord op' k' t' pc' npc' =
      packWord (op &&& op') (k && k') (t && t') (pc &&& pc') (npc &&& npc') := by
  apply BitVec.eq_of_getLsbD_eq
  intro j _
  simp only [BitVec.getLsbD_and, packWord_getLsbD]
  split_ifs <;> rfl

/-! ### The assembler (R94, R95) -/

/-- A line assembles when its numbers fit. -/
theorem assemble_isSome_iff (l : AsmLine) : l.assemble.isSome = l.wf := by
  unfold AsmLine.assemble
  split
  next h => rw [h]; cases l <;> rfl
  next h => simpa using h

/-- An assembled line is well-formed and decodes to its command. -/
theorem decode_of_assemble {l : AsmLine} {w : CmdWord} (h : l.assemble = some w) :
    l.wf = true ∧ decode w = l.instr := by
  refine ⟨by rw [← assemble_isSome_iff, h]; rfl, ?_⟩
  unfold AsmLine.assemble at h
  split at h
  next =>
    cases l <;> cases h
    · exact decode_packWord_evalBcn ..
    · exact decode_packWord_evalSkip ..
    · exact decode_packWord_predict ..
    · exact decode_packWord_update ..
    · exact decode_packWord_update ..
  next => cases h

/-- No line stands for the reserved op (R174). -/
theorem asmLine_instr_ne_reserved (l : AsmLine) : l.instr ≠ .reserved := by
  cases l <;> exact Instr.noConfusion

/-- The word of a trace event, whose two numbers fit their fields (R87, R95). -/
theorem word_of_traceEvent {e : TraceEvent} {w : CmdWord} (h : e.toAsm.assemble = some w) :
    e.pc < 2 ^ 32 ∧ e.npc < 2 ^ 32 ∧
      w = packWord 0#2 (decide (e.code = "BCN")) false (BitVec.ofNat 32 e.pc) (BitVec.ofNat 32 e.npc) := by
  obtain ⟨hwf, -⟩ := decode_of_assemble h
  by_cases hcode : e.code = "BCN"
  · rw [TraceEvent.toAsm, if_pos hcode] at h hwf
    rw [AsmLine.assemble, if_pos hwf] at h
    have hfits : e.pc < 2 ^ 32 ∧ e.npc < 2 ^ 32 := by simpa [AsmLine.wf, fitsPc] using hwf
    exact ⟨hfits.1, hfits.2, by rw [decide_eq_true hcode]; exact (Option.some.inj h).symm⟩
  · rw [TraceEvent.toAsm, if_neg hcode] at h hwf
    rw [AsmLine.assemble, if_pos hwf] at h
    have hfits : e.pc < 2 ^ 32 ∧ e.npc < 2 ^ 32 := by simpa [AsmLine.wf, fitsPc] using hwf
    exact ⟨hfits.1, hfits.2, by rw [decide_eq_false hcode]; exact (Option.some.inj h).symm⟩

/-! ### The statements -/

/-- Settles O4: each command's word carries its op, kind bit and operands in their fields. -/
theorem decodeEncodeRoundTrip : Obligations.DecodeEncodeRoundTrip := fun i _ => decode_encode i

/-- Settles O1: the eight words are evaluated. -/
theorem decodesSpecSampleWords : Obligations.DecodesSpecSampleWords := by
  unfold Obligations.DecodesSpecSampleWords; decide

/-- Settles O2: the op and the kind bit are digits of the word's number, and so is every operand. -/
theorem decodeReadsFieldPositions : Obligations.DecodeReadsFieldPositions := by
  intro w
  have hop := @op_eq_ofNat_iff w
  have hkind := kind_eq w
  refine ⟨fun h0 h1 => ?_, fun h0 h1 => ?_, fun h => ?_, fun h => ?_, fun h => ?_⟩
  · have ho := (hop (by omega : 0 < 4)).2 h0
    rw [h1] at hkind
    simp [decode, ho, hkind, pc_eq, npc_eq]
  · have ho := (hop (by omega : 0 < 4)).2 h0
    rw [h1] at hkind
    simp [decode, ho, hkind]
  · simp [decode, (hop (by omega : 1 < 4)).2 h, pc_eq]
  · simp [decode, (hop (by omega : 2 < 4)).2 h, pc_eq, taken_eq]
  · exact (decode_eq_reserved_iff w).2 ((hop (by omega : 3 < 4)).2 h)

/-- Settles O3: the rows of a word are the rows of its command's own word, which is the one row of that mnemonic. -/
theorem opcodeRowsPartitionWords : Obligations.OpcodeRowsPartitionWords := by
  intro w
  obtain ⟨r, hr, hmn, huniq⟩ := opcodeTable_row_unique (decode w)
  have hcovers : ∀ r' ∈ opcodeTable, r'.covers w = true ↔ r'.mnemonic = (decode w).mnemonic := fun r' hr' => by
    rw [← covers_encode_decode w hr', covers_encode_iff _ hr']
  exact ⟨r, hr, (hcovers r hr).2 hmn, hmn, fun r' hr' hc => huniq r' hr' ((hcovers r' hr').1 hc)⟩

/-- Settles O5: in each of the five forms the mask is itself a packed word, all ones in the fields read and 0 in the
ignored ones. -/
theorem encodeClearsOnlyIgnoredBits : Obligations.EncodeClearsOnlyIgnoredBits := by
  intro w
  rcases word_forms w with ⟨t, pc, npc, rfl⟩ | ⟨t, pc, npc, rfl⟩ | ⟨k, t, pc, npc, rfl⟩ | ⟨k, t, pc, npc, rfl⟩ |
    ⟨k, t, pc, npc, rfl⟩
  · have hmask : 0xEFFFFFFFFFFFFFFFF#68 = packWord 3#2 true false (BitVec.allOnes 32) (BitVec.allOnes 32) := by decide
    simp only [decode_packWord_evalBcn, encode, hmask, packWord_and_packWord, BitVec.and_allOnes, Bool.and_true,
      Bool.and_false]; rfl
  · simp only [decode_packWord_evalSkip, encode, packWord_and_eval_mask]
  · have hmask : 0xCFFFFFFFF00000000#68 = packWord 3#2 false false (BitVec.allOnes 32) 0#32 := by decide
    simp only [decode_packWord_predict, encode, hmask, packWord_and_packWord, BitVec.and_allOnes, BitVec.and_zero,
      Bool.and_false]; rfl
  · have hmask : 0xDFFFFFFFF00000000#68 = packWord 3#2 false true (BitVec.allOnes 32) 0#32 := by decide
    simp only [decode_packWord_update, encode, hmask, packWord_and_packWord, BitVec.and_allOnes, BitVec.and_zero,
      Bool.and_true, Bool.and_false]; rfl
  · simp only [decode_packWord_reserved, encode, packWord_and_op_mask]

/-- Settles O7: a line's word is the packing of its command's fields. -/
theorem assembledLinesDecode : Obligations.AssembledLinesDecode := by
  intro l
  refine ⟨fun hwf => Option.isSome_iff_exists.1 (assemble_isSome_iff l ▸ hwf), fun w hw => ?_⟩
  obtain ⟨-, hdecode⟩ := decode_of_assemble hw
  exact ⟨hdecode, hdecode ▸ asmLine_instr_ne_reserved l⟩

/-- Settles O8: the four digits of the event's word are its op, kind bit and PCs, and the PCs fit their fields. -/
theorem traceEventsAssembleToEval : Obligations.TraceEventsAssembleToEval := by
  intro e w h
  obtain ⟨hpc, hnpc, hw⟩ := word_of_traceEvent h
  have hop : CmdWord.op w = 0#2 := by rw [hw, packWord_op]
  have hkind : CmdWord.kind w = decide (e.code = "BCN") := by rw [hw, packWord_kind]
  have hpcField : CmdWord.pc w = BitVec.ofNat 32 e.pc := by rw [hw, packWord_pc]
  have hnpcField : CmdWord.npc w = BitVec.ofNat 32 e.npc := by rw [hw, packWord_npc]
  rw [pc_eq, ← BitVec.toNat_inj, BitVec.toNat_ofNat, BitVec.toNat_ofNat, Nat.mod_eq_of_lt hpc] at hpcField
  rw [npc_eq, ← BitVec.toNat_inj, BitVec.toNat_ofNat, BitVec.toNat_ofNat, Nat.mod_eq_of_lt hnpc] at hnpcField
  refine ⟨(op_eq_ofNat_iff w (by omega)).1 hop, ?_, hpcField, hnpcField⟩
  rw [← beq_iff_eq, ← kind_eq, hkind, decide_eq_true_iff]

end Sys2Proof
end

section
/-!
Repeated updates and shifts, the PHT ports, the configuration and the rate: the statements of
spec/40_datapath_functions.md, spec/20_memory.md and spec/00_scope.md R8 that speak of no command.
-/

namespace Sys2Proof.Machine

/-! ### The saturating update as one clamped step (R113, R116) -/

/-- Either direction moves by one and clamps at its rail. -/
theorem satUpdate_toNat (n : Nat) (v : BitVec n) (t : Bool) :
    (satUpdate n v t).toNat = if t then min (v.toNat + 1) (2 ^ n - 1) else v.toNat - 1 := by
  have hlt := v.isLt
  cases t with
  | true => rw [satUpdate_true_toNat, if_pos rfl]; split <;> omega
  | false => rw [satUpdate_false_toNat, if_neg Bool.false_ne_true]; split <;> omega

/-- A counter moves by at most one (R23). -/
theorem satUpdate_toNat_near (n : Nat) (v : BitVec n) (t : Bool) :
    (satUpdate n v t).toNat ≤ v.toNat + 1 ∧ v.toNat ≤ (satUpdate n v t).toNat + 1 := by
  have hlt := v.isLt
  rw [satUpdate_toNat]
  split <;> omega

/-- The last of `k + 1` equal updates comes after the first `k`. -/
theorem satRun_replicate_succ (n : Nat) (v : BitVec n) (k : Nat) (t : Bool) :
    satRun n v (List.replicate (k + 1) t) = satUpdate n (satRun n v (List.replicate k t)) t := by
  simp only [satRun, List.replicate_succ', List.foldl_append, List.foldl_cons, List.foldl_nil]

theorem satRun_replicate_true_toNat (n : Nat) (v : BitVec n) (k : Nat) :
    (satRun n v (List.replicate k true)).toNat = min (v.toNat + k) (2 ^ n - 1) := by
  induction k with
  | zero => have hlt := v.isLt; simp only [satRun, List.replicate_zero, List.foldl_nil]; omega
  | succ k ih => rw [satRun_replicate_succ, satUpdate_toNat, if_pos rfl, ih]; omega

theorem satRun_replicate_false_toNat (n : Nat) (v : BitVec n) (k : Nat) :
    (satRun n v (List.replicate k false)).toNat = v.toNat - k := by
  induction k with
  | zero => rfl
  | succ k ih => rw [satRun_replicate_succ, satUpdate_toNat, if_neg Bool.false_ne_true, ih, Nat.sub_sub]

/-! ### The history after several outcomes (R117) -/

theorem ghrRun_append_singleton (m : Nat) (g : BitVec m) (ts : List Bool) (t : Bool) :
    ghrRun m g (ts ++ [t]) = ghrShift m (ghrRun m g ts) t := by
  simp only [ghrRun, List.foldl_append, List.foldl_cons, List.foldl_nil]

/-- Bit `k` is the outcome `k` before the last, then the old bits: induction on the outcomes from the last
one back. -/
theorem ghrRun_getLsbD (m : Nat) (g : BitVec m) (ts : List Bool) {k : Nat} (hk : k < m) :
    (ghrRun m g ts).getLsbD k = if k < ts.length then ts.reverse.getD k false else g.getLsbD (k - ts.length) := by
  induction ts using List.reverseRecOn generalizing k with
  | nil => rfl
  | append_singleton ts t ih =>
    rw [ghrRun_append_singleton, ghrShift_getLsbD, decide_eq_true hk, Bool.true_and, List.length_append,
      List.length_singleton, List.reverse_append, List.reverse_singleton, List.singleton_append]
    cases k with
    | zero => simp
    | succ k => simp [ih (Nat.lt_of_succ_lt hk), Nat.add_sub_add_right]

/-! ### Outcome and entry address (R111, R51) -/

theorem inferTaken_eq_decide (pc npc : Pc) :
    inferTaken pc npc = decide (npc.toNat ≠ (pc.toNat + 4) % 2 ^ 32) := by
  have hsum : (pc + 4#32).toNat = (pc.toNat + 4) % 2 ^ 32 := BitVec.toNat_add pc 4#32
  rw [Bool.eq_iff_iff, inferTaken, bne_iff_ne, decide_eq_true_iff, Ne, ← BitVec.toNat_inj, hsum]

/-- The index as a shift and a mask (O19 states it), in the spelling of R110. -/
theorem idx_toNat_eq_mask (c : Cfg) (pc : Pc) : (idx c pc).toNat = (pc.toNat >>> 2) &&& (2 ^ c.p - 1) :=
  (indexHashSelectsPcBits c pc).1

/-- `EA(pc)` as a number. -/
theorem entryOf_toNat (s : State) (pc : Pc) :
    (entryOf s pc).toNat = ((pc.toNat >>> 2) &&& (2 ^ s.cfg.p - 1)) * 2 ^ s.cfg.m + s.ghr.toNat := by
  rw [entryOf, entryAddr_toNat, idx_toNat_eq_mask]

/-- The index is PC bits `p + 1` down to 2 and no others. -/
theorem idx_eq_of_bits_eq (c : Cfg) {pc pc' : Pc} (h : ∀ k < c.p, pc.getLsbD (k + 2) = pc'.getLsbD (k + 2)) :
    idx c pc = idx c pc' := by
  apply BitVec.eq_of_getLsbD_eq
  intro k hk
  rw [idx_getLsbD, idx_getLsbD, Nat.add_comm 2 k, h k hk]

/-! ### The statements -/

/-- Settles O24, by induction on the number of updates in each direction. -/
theorem saturationAfterRepeatedUpdates : Obligations.SaturationAfterRepeatedUpdates := by
  intro c v k
  have hlt := v.isLt
  have hrange : 2 ≤ 2 ^ c.n := Nat.le_self_pow (Nat.ne_of_gt c.n_pos) 2
  refine ⟨satRun_replicate_true_toNat c.n v k, satRun_replicate_false_toNat c.n v k, ?_, ?_⟩
  · change (satUpdate c.n (satUpdate c.n v true) false).toNat = _
    rw [satUpdate_toNat, satUpdate_toNat, if_neg Bool.false_ne_true, if_pos rfl]
    split <;> omega
  · change (satUpdate c.n (satUpdate c.n v false) true).toNat = _
    rw [satUpdate_toNat, satUpdate_toNat, if_pos rfl, if_neg Bool.false_ne_true]
    split <;> omega

/-- Settles O25: after `k` taken updates a fresh counter holds `min k (2^n - 1)`. -/
theorem freshEntryTakenAfterHalfRange : Obligations.FreshEntryTakenAfterHalfRange := by
  intro c k
  have hrange := two_mul_half_range c
  have hpos : 0 < 2 ^ (c.n - 1) := Nat.two_pow_pos _
  rw [predBit_eq_true_iff, satRun_replicate_true_toNat, BitVec.toNat_zero]
  omega

/-- Settles O27, by induction on the outcomes from the last one back. -/
theorem historyHoldsLastOutcomes : Obligations.HistoryHoldsLastOutcomes := fun m g ts _ hk => ghrRun_getLsbD m g ts hk

/-- Settles O28: table index high, row low, each within its width. -/
theorem entryAddressIsTableTimesRowsPlusRow : Obligations.EntryAddressIsTableTimesRowsPlusRow := fun s pc =>
  ⟨entryOf_toNat s pc, (entryOf s pc).isLt⟩

/-- Settles O20: the entry address takes the PC through the index only. -/
theorem pcsWithSameIndexBitsShareEntry : Obligations.PcsWithSameIndexBitsShareEntry := fun s _ _ h =>
  congrArg (entryAddr s.cfg · s.ghr) (idx_eq_of_bits_eq s.cfg h)

/-- Settles O21: equality of 32-bit words is equality of numbers, and the sum wraps. -/
theorem notTakenIffSequential : Obligations.NotTakenIffSequential := by
  intro pc npc
  rw [inferTaken_eq_decide, decide_eq_false_iff_not, not_not]

/-- Settles O29: the two laws of the memory, at two addresses of the PHT's width. -/
theorem phtWriteChangesOneEntry : Obligations.PhtWriteChangesOneEntry := by
  intro s a b v hwf
  by_cases hba : b = a
  · rw [if_pos hba, hba]; exact read_write_same hwf a.toNat v
  · rw [if_neg hba]; exact read_write_other s.mem v (fun h => hba (BitVec.eq_of_toNat_eq h))

/-- Settles O57: construction tests R8's clauses one after the other. -/
theorem instanceBuiltIffConfigurationWellFormed : Obligations.InstanceBuiltIffConfigurationWellFormed := by
  intro limit r
  have hwf : r.wf limit = true ↔ (1 ≤ r.n ∧ r.p ≤ 30) ∧ r.storageOk limit = true := by
    simp [RawCfg.wf, RawCfg.counterWidthOk, RawCfg.indexWidthOk]
  have hstorage : r.storageOk limit = true ↔ ∀ k, limit = some k → r.p + r.m ≤ k := by
    cases limit <;> simp [RawCfg.storageOk]
  refine ⟨fun c hc => ?_, fun h => ?_, by rw [hwf, hstorage, and_assoc]⟩
  · unfold RawCfg.build at hc
    split_ifs at hc with hn hp hs
    cases hc
    exact ⟨hwf.2 ⟨⟨hn, hp⟩, hs⟩, rfl, rfl, rfl⟩
  · obtain ⟨⟨hn, hp⟩, hs⟩ := hwf.1 h
    exact ⟨_, by rw [RawCfg.build, dif_pos hn, dif_pos hp, if_pos hs]⟩

/-- Settles O58: division by a nonzero READS, and a quotient of at most 1. -/
theorem rateIsPercentage : Obligations.RateIsPercentage := by
  intro reads misp
  refine ⟨fun h => if_pos h, fun h => ?_, fun hle => ?_⟩
  · have hreads : (reads.toNat : ℚ) ≠ 0 := Nat.cast_ne_zero.2 fun h0 => h (BitVec.eq_of_toNat_eq h0)
    rw [rate, if_neg h, mul_right_comm, div_mul_cancel₀ _ hreads]
  · unfold rate
    split
    · norm_num
    · have hquot : (misp.toNat : ℚ) / reads.toNat ≤ 1 := div_le_one_of_le₀ (Nat.cast_le.2 hle) (Nat.cast_nonneg _)
      have hnonneg : 0 ≤ (misp.toNat : ℚ) / reads.toNat := by positivity
      constructor <;> linarith

end Sys2Proof.Machine
end

section
/-!
A command as its response: every command but the reserved op does what its response says, so one inversion serves all
the rules of the whole machine. Then the step by the host's next event, and runs of commands.
-/

namespace Sys2Proof.Machine

/-! ### The response of a command, and the state after it (R90, R93) -/

/-- The response command `i` returns in state `s`, none for the reserved op (R90, R176). -/
def State.response (s : State) : Instr → Option (Rsp s.cfg.p)
  | .evalBcn pc npc =>
    some { op := 0#2, skip := false, idx := idx s.cfg pc, pred := s.prediction pc, taken := inferTaken pc npc,
           mis := mispredicted (s.prediction pc) (inferTaken pc npc) }
  | .evalSkip => some { op := 0#2, skip := true, idx := 0#s.cfg.p, pred := false, taken := false, mis := false }
  | .predict pc =>
    some { op := 1#2, skip := false, idx := idx s.cfg pc, pred := s.prediction pc, taken := false, mis := false }
  | .update pc t => some { op := 2#2, skip := false, idx := idx s.cfg pc, pred := false, taken := t, mis := false }
  | .reserved => none

/-- `s` after a command that returned `r`: the predictor and the statistics move as replaying `r` moves them. -/
abbrev State.answered (s : State) (r : Rsp s.cfg.p) : State :=
  { s with
    ghr := (s.predictor.replayOne r).ghr, mem := (s.predictor.replayOne r).mem
    reads := (s.predictor.replayOne r).reads, misp := (s.predictor.replayOne r).misp, rsps := s.rsps ++ [r] }

/-- `s` after command `i`, if it is accepted. -/
def State.after (s : State) (i : Instr) : State :=
  match s.response i with
  | some r => s.answered r
  | none => raiseAbort s .illegalCommand

section
variable (s : State) (r : Rsp s.cfg.p)
@[simp] theorem answered_cfg : (s.answered r).cfg = s.cfg := rfl
@[simp] theorem answered_fault : (s.answered r).fault = s.fault := rfl
@[simp] theorem answered_faultCause : (s.answered r).faultCause = s.faultCause := rfl
@[simp] theorem answered_input : (s.answered r).input = s.input := rfl
@[simp] theorem answered_rsps : (s.answered r).rsps = s.rsps ++ [r] := rfl
@[simp] theorem answered_rsps_length : (s.answered r).rsps.length = s.rsps.length + 1 := List.length_append
@[simp] theorem answered_answers : (s.answered r).answers = s.answers ++ [r.plain] := List.map_append
@[simp] theorem answered_reads : (s.answered r).reads = bump s.reads r.evaluates := rfl
@[simp] theorem answered_misp : (s.answered r).misp = bump s.misp (r.evaluates && r.mis) := rfl
@[simp] theorem answered_ghr :
    (s.answered r).ghr = if r.trains then ghrShift s.cfg.m s.ghr r.taken else s.ghr := rfl
@[simp] theorem answered_mem :
    (s.answered r).mem = if r.trains then (doUpdate s r.idx r.taken).mem else s.mem := rfl
theorem answered_predictor : (s.answered r).predictor = s.predictor.replayOne r := rfl
end

theorem after_of_response {s : State} {i : Instr} {r : Rsp s.cfg.p} (h : s.response i = some r) :
    s.after i = s.answered r := by
  rw [State.after, h]

/-- Each meaning is the acceptance of what its response says. -/
theorem exec_eq_accept_after (i : Instr) (s : State) : exec i s = accept s (s.after i) := by
  cases i <;> rfl

theorem exec_running {s : State} (h : s.running) (i : Instr) : exec i s = .next (s.after i) := by
  rw [exec_eq_accept_after, accept_running h]

theorem exec_faulted {s : State} (h : s.fault = true) (i : Instr) : exec i s = .fault .notAccepted := by
  rw [exec_eq_accept_after, accept_faulted h]

/-- The inversion of `exec` by the response: the abort, or a response that says everything. -/
theorem exec_next_answered {i : Instr} {s t : State} (h : exec i s = .next t) :
    s.running ∧ ((i = .reserved ∧ t = raiseAbort s .illegalCommand) ∨
      ∃ r, s.response i = some r ∧ t = s.answered r) := by
  obtain ⟨hrun, ⟨pc, npc, rfl, rfl⟩ | ⟨rfl, rfl⟩ | ⟨pc, rfl, rfl⟩ | ⟨pc, b, rfl, rfl⟩ | ⟨rfl, rfl⟩⟩ :=
    exec_next_cases h
  · exact ⟨hrun, .inr ⟨_, rfl, rfl⟩⟩
  · exact ⟨hrun, .inr ⟨_, rfl, rfl⟩⟩
  · exact ⟨hrun, .inr ⟨_, rfl, rfl⟩⟩
  · exact ⟨hrun, .inr ⟨_, rfl, rfl⟩⟩
  · exact ⟨hrun, .inl ⟨rfl, rfl⟩⟩

/-- A response has its command's op and the shape of its command's column. -/
theorem response_op_wf {s : State} {i : Instr} {r : Rsp s.cfg.p} (h : s.response i = some r) :
    r.op = CmdWord.op (encode i) ∧ r.wf := by
  cases i with
  | evalBcn pc npc => cases h; exact ⟨(packWord_op ..).symm, .inl ⟨rfl, rfl, rfl⟩⟩
  | evalSkip => cases h; exact ⟨(packWord_op ..).symm, .inr (.inl ⟨rfl, rfl, rfl, rfl, rfl, rfl⟩)⟩
  | predict pc => cases h; exact ⟨(packWord_op ..).symm, .inr (.inr (.inl ⟨rfl, rfl, rfl, rfl⟩))⟩
  | update pc t => cases h; exact ⟨(packWord_op ..).symm, .inr (.inr (.inr ⟨rfl, rfl, rfl, rfl⟩))⟩
  | reserved => cases h

/-- No command reads the response list. -/
theorem response_rsps_irrelevant (s : State) (i : Instr) (x : List (Rsp s.cfg.p)) :
    State.response { s with rsps := x } i = s.response i := by
  cases i <;> rfl

/-- So a command after another response list returns the same response and does the same. -/
theorem exec_of_other_rsps {s : State} {i : Instr} {r : Rsp s.cfg.p} (hrun : s.running)
    (hr : s.response i = some r) (x : List (Rsp s.cfg.p)) :
    exec i { s with rsps := x } = .next { s.answered r with rsps := x ++ [r] } :=
  (exec_running (s := { s with rsps := x }) hrun i).trans
    (congrArg _ (after_of_response ((response_rsps_irrelevant s i x).trans hr)))

theorem exec_quiet_next {i : Instr} {s t : State} (hq : quiet i = true) (h : exec i s = .next t) :
    ∃ r, t = respond s r := by
  cases i with
  | evalSkip => exact ⟨_, (accept_eq_next.1 h).2.symm⟩
  | predict pc => exact ⟨_, (accept_eq_next.1 h).2.symm⟩
  | evalBcn pc npc => cases hq
  | update pc t => cases hq
  | reserved => cases hq

/-! ### The step by the host's next event (R93) -/

section
variable {s : State} {rest : List HostEvent}

theorem step_nil (h : s.input = []) : step s = .next s := by
  simp only [step, takeEvent, h]

theorem step_idle (h : s.input = .idle :: rest) : step s = .next { s with input := rest } := by
  simp only [step, takeEvent, h]

theorem step_command {w : CmdWord} (h : s.input = .command w :: rest) :
    step s = exec (decode w) { s with input := rest } := by
  simp only [step, takeEvent, h]

theorem step_reset {o : Option CmdWord} (h : s.input = .reset o :: rest) :
    step s = .next { State.resetOf s.cfg with input := rest } := by
  simp only [step, takeEvent, h]

end

theorem step_offer (s : State) (w : CmdWord) : step (s.offer w) = exec (decode w) s := step_command rfl

/-- What every step keeps: a property that does not look at the input, holds after reset, and is kept by every
response and by the abort. -/
theorem step_preserves {P : State → Prop} (hinput : ∀ s x, P s → P { s with input := x })
    (hreset : ∀ s, P s → P (State.resetOf s.cfg))
    (hanswer : ∀ s i r, P s → s.response i = some r → P (s.answered r))
    (habort : ∀ s, P s → P (raiseAbort s .illegalCommand)) {s t : State} (hs : P s) (h : step s = .next t) : P t := by
  rcases step_next_cases h with ⟨-, rfl⟩ | ⟨rest, -, rfl⟩ | ⟨w, rest, -, hexec⟩ | ⟨o, rest, -, rfl⟩
  · exact hs
  · exact hinput s rest hs
  · obtain ⟨-, ⟨-, rfl⟩ | ⟨r, hr, rfl⟩⟩ := exec_next_answered hexec
    · exact habort _ (hinput s rest hs)
    · exact hanswer _ _ r (hinput s rest hs) hr
  · exact hinput _ rest (hreset s hs)

/-! ### Runs of commands (R60) -/

theorem runCommands_cons_of_next {w : CmdWord} {ws : List CmdWord} {s t : State} (h : exec (decode w) s = .next t) :
    runCommands (w :: ws) s = runCommands ws t := by
  rw [runCommands, h]

theorem runCommands_cons_eq_next {w : CmdWord} {ws : List CmdWord} {s t : State} :
    runCommands (w :: ws) s = .next t ↔ ∃ u, exec (decode w) s = .next u ∧ runCommands ws u = .next t := by
  rw [runCommands]
  cases exec (decode w) s <;> simp

theorem runCommands_append_of_next {xs ys : List CmdWord} {s t : State} (h : runCommands xs s = .next t) :
    runCommands (xs ++ ys) s = runCommands ys t := by
  induction xs generalizing s with
  | nil => cases h; rfl
  | cons x xs ih =>
    obtain ⟨u, hu, hrest⟩ := runCommands_cons_eq_next.1 h
    rw [List.cons_append, runCommands_cons_of_next hu, ih hrest]

/-- A completed run of two lists is a completed run of the one and then of the other. -/
theorem runCommands_append_eq_next {xs ys : List CmdWord} {s t : State} :
    runCommands (xs ++ ys) s = .next t ↔ ∃ u, runCommands xs s = .next u ∧ runCommands ys u = .next t := by
  refine ⟨fun h => ?_, fun ⟨u, hu, hrest⟩ => (runCommands_append_of_next hu).trans hrest⟩
  induction xs generalizing s with
  | nil => exact ⟨s, rfl, h⟩
  | cons x xs ih =>
    obtain ⟨u, hu, hrest⟩ := runCommands_cons_eq_next.1 h
    obtain ⟨v, hv, hlast⟩ := ih hrest
    exact ⟨v, runCommands_cons_eq_next.2 ⟨u, hu, hv⟩, hlast⟩

theorem runCommands_faulted_cons {s : State} (h : s.fault = true) (w : CmdWord) (ws : List CmdWord) :
    runCommands (w :: ws) s = .fault .notAccepted := by
  rw [runCommands, exec_faulted h]

/-- From a running state commands other than the reserved op leave the machine running. -/
theorem runCommands_of_no_reserved {s : State} (hs : s.running) {ws : List CmdWord}
    (hws : ∀ w ∈ ws, isReservedWord w = false) : ∃ t, runCommands ws s = .next t ∧ t.running := by
  induction ws generalizing s with
  | nil => exact ⟨s, rfl, hs⟩
  | cons w ws ih =>
    obtain ⟨hw, hws⟩ := List.forall_mem_cons.1 hws
    have hexec := exec_running hs (decode w)
    have hafter : (s.after (decode w)).running := by
      obtain ⟨-, ⟨hres, -⟩ | ⟨r, -, heq⟩⟩ := exec_next_answered hexec
      · simp [isReservedWord, hres] at hw
      · rw [heq]; exact hs
    obtain ⟨t, ht, hrun⟩ := ih hafter hws
    exact ⟨t, (runCommands_cons_of_next hexec).trans ht, hrun⟩

/-- A run that ends running started running. -/
theorem running_of_runCommands {ws : List CmdWord} {s t : State} (h : runCommands ws s = .next t) (ht : t.running) :
    s.running := by
  cases ws with
  | nil => cases h; exact ht
  | cons w ws =>
    obtain ⟨u, hu, -⟩ := runCommands_cons_eq_next.1 h
    exact (exec_next_answered hu).1

/-- A run that ends running has answered every command. -/
theorem runCommands_rsps_length {ws : List CmdWord} {s t : State} (h : runCommands ws s = .next t) (ht : t.running) :
    t.rsps.length = s.rsps.length + ws.length := by
  induction ws generalizing s with
  | nil => cases h; rfl
  | cons w ws ih =>
    obtain ⟨u, hu, hrest⟩ := runCommands_cons_eq_next.1 h
    have hurun := running_of_runCommands hrest ht
    obtain ⟨-, ⟨-, rfl⟩ | ⟨r, -, rfl⟩⟩ := exec_next_answered hu
    · cases hurun
    · rw [ih hrest, answered_rsps_length, List.length_cons]; omega

/-- Leaving one earlier response out of the list leaves the same one out after a command. -/
theorem exec_erase_response {i : Instr} {s t : State} {b a : List (Rsp s.cfg.p)} {r : Rsp s.cfg.p}
    (hs : s.rsps = b ++ r :: a) (h : exec i s = .next t) :
    ∃ b' r' a', t.rsps = b' ++ r' :: a' ∧ b'.length = b.length ∧
      exec i { s with rsps := b ++ a } = .next { t with rsps := b' ++ a' } := by
  obtain ⟨hrun, ⟨rfl, rfl⟩ | ⟨q, hq, rfl⟩⟩ := exec_next_answered h
  · exact ⟨b, r, a, hs, rfl, exec_running (s := { s with rsps := b ++ a }) hrun .reserved⟩
  · refine ⟨b, r, a ++ [q], ?_, rfl, ?_⟩
    · rw [answered_rsps, hs, List.append_assoc, List.cons_append]
    · rw [← List.append_assoc]; exact exec_of_other_rsps hrun hq (b ++ a)

theorem runCommands_erase_response {ws : List CmdWord} {s t : State} {b a : List (Rsp s.cfg.p)} {r : Rsp s.cfg.p}
    (hs : s.rsps = b ++ r :: a) (h : runCommands ws s = .next t) :
    ∃ b' r' a', t.rsps = b' ++ r' :: a' ∧ b'.length = b.length ∧
      runCommands ws { s with rsps := b ++ a } = .next { t with rsps := b' ++ a' } := by
  induction ws generalizing s with
  | nil => cases h; exact ⟨b, r, a, hs, rfl, rfl⟩
  | cons w ws ih =>
    obtain ⟨u, hu, hrest⟩ := runCommands_cons_eq_next.1 h
    obtain ⟨b₁, r₁, a₁, hu', hlen₁, hexec⟩ := exec_erase_response hs hu
    obtain ⟨b₂, r₂, a₂, ht, hlen₂, hrun⟩ := ih hu' hrest
    exact ⟨b₂, r₂, a₂, ht, hlen₂.trans hlen₁, (runCommands_cons_of_next hexec).trans hrun⟩

/-! ### The statements on the step and on runs -/

/-- Settles O9: the step at an offered word. -/
theorem stepRunsOfferedCommand : Obligations.StepRunsOfferedCommand := fun _ _ _ h _ => step_command h

/-- Settles O10: the step at an empty input and at an idle event. -/
theorem stepIdleKeepsState : Obligations.StepIdleKeepsState := fun _ => ⟨step_nil, fun _ => step_idle⟩

/-- Settles O6: two words that differ in ignored fields only decode to one command. -/
theorem ignoredFieldsHaveNoEffect : Obligations.IgnoredFieldsHaveNoEffect := by
  intro s c c' t t' pc pc' npc npc'
  simp only [step_offer, decode_packWord_evalBcn, decode_packWord_evalSkip, decode_packWord_predict,
    decode_packWord_update, decode_packWord_reserved, and_self]

/-- Settles O11, by induction on the words: a command does not see the events queued behind it. -/
theorem stepsAreFoldOfCommands : Obligations.StepsAreFoldOfCommands := by
  intro ws s rest
  induction ws generalizing s with
  | nil => rfl
  | cons w ws ih =>
    have hstep : Sys2Proof.core.step { s with input := (w :: ws).map HostEvent.command ++ rest } =
        exec (decode w) { s with input := ws.map HostEvent.command ++ rest } :=
      step_offer { s with input := ws.map HostEvent.command ++ rest } w
    simp only [List.length_cons, Host.Core.run, hstep, runCommands, exec_input]
    cases exec (decode w) s with
    | next t => exact ih t
    | fault r => rfl
    | refused r => rfl

/-- Settles O12: the run up to the reserved word, the abort there, and no acceptance after it. -/
theorem commandListConsumedToFirstReserved : Obligations.CommandListConsumedToFirstReserved := by
  intro s ws hs hws
  obtain ⟨t, ht, hrun⟩ := runCommands_of_no_reserved hs hws
  refine ⟨t, ht, hrun, fun w post hw => ?_⟩
  have habort : exec (decode w) t = .next (raiseAbort t .illegalCommand) := by
    rw [eq_of_beq hw]; exact exec_running hrun .reserved
  rw [runCommands_append_of_next ht, runCommands_cons_of_next habort]
  refine ⟨fun hpost => by rw [hpost]; rfl, fun hpost => ?_⟩
  obtain ⟨w', ws', rfl⟩ := List.exists_cons_of_ne_nil hpost
  exact runCommands_faulted_cons rfl w' ws'

/-- Settles O13: of the four kinds of step only the command can stop, and only in a faulted state. -/
theorem onlyFaultedMachineStops : Obligations.OnlyFaultedMachineStops := by
  intro s
  rcases hin : s.input with _ | ⟨_ | w | o, rest⟩
  · exact .inl ⟨_, step_nil hin⟩
  · exact .inl ⟨_, step_idle hin⟩
  · cases hf : s.fault with
    | false => exact .inl ⟨_, (step_command hin).trans (exec_running (s := { s with input := rest }) hf _)⟩
    | true =>
      exact .inr ⟨rfl, (step_command hin).trans (exec_faulted (s := { s with input := rest }) hf _), w, rest, rfl⟩
  · exact .inl ⟨_, step_reset hin⟩

/-- Settles O14: acceptance is refused before any meaning takes effect. -/
theorem faultedMachineAcceptsNoCommand : Obligations.FaultedMachineAcceptsNoCommand := by
  intro i s hf
  exact ⟨exec_faulted hf i, by rw [State.cmdReady, hf]; rfl⟩

/-- Settles O15: the fields of the reset state. -/
theorem resetLeavesSpecValues : Obligations.ResetLeavesSpecValues :=
  ⟨fun c => ⟨resetOf_cfg c, read_nil, resetOf_ghr c, resetOf_reads c, resetOf_misp c, resetOf_fault c,
    resetOf_faultCause c⟩, rfl⟩

/-- Settles O16: the step at a reset edge. -/
theorem resetEdgeResetsEverything : Obligations.ResetEdgeResetsEverything := fun _ _ _ => step_reset

/-- Settles O17: no command touches the configuration or the input, all that a reset keeps. -/
theorem resetVoidsEarlierCommand : Obligations.ResetVoidsEarlierCommand := by
  intro i s t h
  obtain ⟨-, ⟨-, rfl⟩ | ⟨r, -, rfl⟩⟩ := exec_next_answered h
  · rfl
  · rfl

/-- Settles O56: the inserted command's only trace is its response, and no later command reads it. -/
theorem predictAndSkipInsertable : Obligations.PredictAndSkipInsertable := by
  intro pre post w s t hq h
  obtain ⟨u, hpre, hrest⟩ := runCommands_append_eq_next.1 h
  obtain ⟨v, hw, hpost⟩ := runCommands_cons_eq_next.1 hrest
  obtain ⟨r, rfl⟩ := exec_quiet_next hq hw
  obtain ⟨before, r', after, ht, hlen, hrun⟩ := runCommands_erase_response (respond_rsps u r) hpost
  refine ⟨before, r', after, ht, ?_, ?_⟩
  · rw [hlen, runCommands_rsps_length hpre (exec_next_answered hw).1]
  · rw [List.append_nil] at hrun
    exact (runCommands_append_of_next hpre).trans hrun

end Sys2Proof.Machine
end

section
/-!
The five commands, each with its effect and its frame: the statements of spec/41_predict.md, spec/42_update.md,
spec/43_eval_and_statistics.md and spec/60_exceptions.md R176.
-/

namespace Sys2Proof.Machine

/-! ### The prediction and the counts as numbers (R112, R150, R156) -/

/-- The prediction is the comparison of the entry with the threshold `2^(n-1)`. -/
theorem prediction_eq_decide (s : State) (pc : Pc) :
    s.prediction pc = decide (2 ^ (s.cfg.n - 1) ≤ (s.mem.read (entryOf s pc).toNat).toNat) :=
  predBit_eq_decide s.cfg _

/-- The prediction is the entry shifted down to its top bit. -/
theorem prediction_eq_decide_shift (s : State) (pc : Pc) :
    s.prediction pc = decide ((s.mem.read (entryOf s pc).toNat).toNat >>> (s.cfg.n - 1) = 1) := by
  have hshift : (s.prediction pc).toNat = (s.mem.read (entryOf s pc).toNat).toNat >>> (s.cfg.n - 1) :=
    predBit_toNat s.cfg _
  rw [← hshift]
  cases s.prediction pc <;> rfl

/-- A fresh entry predicts not taken (R208). -/
theorem prediction_resetOf (c : Cfg) (pc : Pc) : (State.resetOf c).prediction pc = false :=
  BitVec.getLsbD_zero

/-- MISP counts exactly the events whose prediction differs from the outcome. -/
theorem bump_mispredicted (k : Count) (pr tk : Bool) :
    bump k (mispredicted pr tk) = if pr = tk then k else k + 1#64 := by
  cases pr <;> cases tk <;> rfl

theorem count_succ_toNat (k : Count) : (k + 1#64).toNat = (k.toNat + 1) % 2 ^ 64 := BitVec.toNat_add k 1#64

theorem bump_mispredicted_toNat (k : Count) (pr tk : Bool) :
    (bump k (mispredicted pr tk)).toNat = if pr = tk then k.toNat else (k.toNat + 1) % 2 ^ 64 := by
  rw [bump_mispredicted]
  split
  · rfl
  · exact count_succ_toNat k

/-- Returning a response keeps every earlier one. -/
theorem answers_extended_by_respond (s : State) (r : Rsp s.cfg.p) : s.answers <+: (respond s r).answers :=
  respond_answers s r ▸ List.prefix_append ..

theorem respond_last_pred (s : State) (r : Rsp s.cfg.p) : (respond s r).rsps.getLast?.map Rsp.pred = some r.pred := by
  rw [respond_rsps, List.getLast?_concat, Option.map_some]

/-! ### The update body at `entryOf s pc` (R141) -/

/-- The entry of `pc` moves one clamped step towards the outcome. -/
theorem doUpdate_entry_toNat {s : State} (hwf : Memory.wf s.cfg.numEntries s.mem) {pc : Pc} {a : Nat}
    (ha : (entryOf s pc).toNat = a) (t : Bool) :
    ((doUpdate s (idx s.cfg pc) t).mem.read a).toNat =
      if t then min ((s.mem.read a).toNat + 1) (2 ^ s.cfg.n - 1) else (s.mem.read a).toNat - 1 := by
  rw [← ha, entryOf, doUpdate_mem_read_same hwf, satUpdate_toNat]

/-- Every other entry stays. -/
theorem doUpdate_other_toNat (s : State) (pc : Pc) (t : Bool) {a : Nat} (ha : a ≠ (entryOf s pc).toNat) :
    ((doUpdate s (idx s.cfg pc) t).mem.read a).toNat = (s.mem.read a).toNat :=
  congrArg BitVec.toNat (doUpdate_mem_read_other s (idx s.cfg pc) t ha)

/-- So the update body moves one entry, by at most one (R23, R59). -/
theorem doUpdate_moves_one {s : State} (hwf : Memory.wf s.cfg.numEntries s.mem) (pc : Pc) (t : Bool) :
    (∀ a, a ≠ (entryOf s pc).toNat →
      ((doUpdate s (idx s.cfg pc) t).mem.read a).toNat = (s.mem.read a).toNat) ∧
    ((doUpdate s (idx s.cfg pc) t).mem.read (entryOf s pc).toNat).toNat ≤
      (s.mem.read (entryOf s pc).toNat).toNat + 1 ∧
    (s.mem.read (entryOf s pc).toNat).toNat ≤
      ((doUpdate s (idx s.cfg pc) t).mem.read (entryOf s pc).toNat).toNat + 1 := by
  refine ⟨fun a ha => doUpdate_other_toNat s pc t ha, ?_⟩
  rw [entryOf, doUpdate_mem_read_same hwf]
  exact satUpdate_toNat_near ..

/-- The shifted history under the mask of R114. -/
theorem ghrShift_toNat_eq_mask (m : Nat) (g : BitVec m) (t : Bool) :
    (ghrShift m g t).toNat = ((g.toNat <<< 1) ||| t.toNat) &&& (2 ^ m - 1) :=
  (historyShiftFormula m g t).1

/-! ### The commands complete, with the effect the spec gives them -/

/-- Settles O31: the response carries the index and the top bit of the counter, and nothing else is written. -/
theorem predictAnswersTopBitOfCounter : Obligations.PredictAnswersTopBitOfCounter := by
  intro pc s hs i v
  have hpred : s.prediction pc = decide (v >>> (s.cfg.n - 1) = 1) := by
    rw [prediction_eq_decide_shift, entryOf_toNat]
  refine ⟨_, accept_running hs _, ?_⟩
  rw [Rsp.plain, idx_toNat_eq_mask, hpred]

/-- Settles O32: the update body at the entry of `pc`. -/
theorem updateTrainsOneCounter : Obligations.UpdateTrainsOneCounter := by
  intro pc b s hs hwf i a v
  have ha : (entryOf s pc).toNat = a := entryOf_toNat s pc
  refine ⟨_, accept_running hs _, rfl, ?entry, fun a' ha' => ?others, ghrShift_toNat_eq_mask .., rfl, rfl, hs, rfl,
    ?answer⟩
  case entry => exact doUpdate_entry_toNat hwf ha b
  case others => exact doUpdate_other_toNat s pc b (ha ▸ ha')
  case answer => rw [respond_answers, Rsp.plain, idx_toNat_eq_mask, doUpdate_answers]

/-- Settles O33: prediction and comparison on the state before, then the update body with the inferred outcome. -/
theorem evalBcnPredictsThenTrainsAndCounts : Obligations.EvalBcnPredictsThenTrainsAndCounts := by
  intro pc npc s hs hwf i a v tk pr
  have ha : (entryOf s pc).toNat = a := entryOf_toNat s pc
  have htk : inferTaken pc npc = tk := inferTaken_eq_decide pc npc
  have hpr : s.prediction pc = pr := by rw [prediction_eq_decide, ha]
  refine ⟨_, accept_running hs _, rfl, ?entry, fun a' ha' => ?others, ?history, count_succ_toNat _, ?misp, hs, rfl,
    ?answer⟩
  case entry => rw [← htk]; exact doUpdate_entry_toNat hwf ha (inferTaken pc npc)
  case others => exact doUpdate_other_toNat s pc _ (ha ▸ ha')
  case history => rw [← htk]; exact ghrShift_toNat_eq_mask ..
  case misp => rw [← htk, ← hpr]; exact bump_mispredicted_toNat ..
  case answer =>
    rw [respond_answers, Rsp.plain, idx_toNat_eq_mask, countEvent_answers, doUpdate_answers, htk, hpr]; rfl

/-- Settles O34: the skip form's acceptance. -/
theorem evalSkipOnlyResponds : Obligations.EvalSkipOnlyResponds := fun _ hs => accept_running hs _

/-- Settles O35: the reserved op's acceptance is the abort with code 1. -/
theorem reservedOpAborts : Obligations.ReservedOpAborts := fun _ hs => accept_running hs _

/-- Settles O18: from reset every counter is 0, whose top bit is 0. -/
theorem freshPredictorSaysNotTaken : Obligations.FreshPredictorSaysNotTaken := by
  intro c pc
  refine ⟨_, accept_running (resetOf_fault c) _, ?_⟩
  rw [respond_answers, Rsp.plain, idx_toNat_eq_mask, prediction_resetOf]; rfl

/-! ### Frames -/

/-- Settles O36: both commands only respond. -/
theorem predictAndSkipFrame : Obligations.PredictAndSkipFrame := by
  intro pc s t h
  obtain ⟨r, rfl⟩ : ∃ r, t = respond s r := h.elim (exec_quiet_next rfl) (exec_quiet_next rfl)
  exact ⟨rfl, rfl, fun _ => rfl, rfl, rfl, rfl, rfl, rfl, answers_extended_by_respond s r⟩

/-- Settles O37: the update body writes one entry and GHR. -/
theorem updateFrame : Obligations.UpdateFrame := by
  intro pc b s t h
  obtain ⟨-, rfl⟩ := accept_eq_next.1 h
  exact ⟨rfl, fun _ ha => doUpdate_other_toNat s pc b ha, rfl, rfl, rfl, rfl, rfl, answers_extended_by_respond ..⟩

/-- Settles O38: the update body writes one entry and GHR, the count READS and MISP. -/
theorem evalBcnFrame : Obligations.EvalBcnFrame := by
  intro pc npc s t h
  obtain ⟨-, rfl⟩ := accept_eq_next.1 h
  exact ⟨rfl, fun _ ha => doUpdate_other_toNat s pc _ ha, rfl, rfl, rfl, answers_extended_by_respond ..⟩

/-- Settles O39: the abort writes FAULT and `fault_cause`. -/
theorem reservedOpFrame : Obligations.ReservedOpFrame := by
  intro s t h
  obtain ⟨-, rfl⟩ := accept_eq_next.1 h
  exact ⟨rfl, rfl, fun _ => rfl, rfl, rfl, rfl, raiseAbort_answers s _⟩

/-! ### Rules of one command and of two in a row -/

/-- Settles O52: the two training commands run the update body at the entry of `pc`, the others write no entry. -/
theorem commandMovesAtMostOneCounter : Obligations.CommandMovesAtMostOneCounter := by
  intro i s t hinv h
  cases i with
  | evalBcn pc npc => obtain ⟨-, rfl⟩ := accept_eq_next.1 h; exact doUpdate_moves_one hinv.1 pc (inferTaken pc npc)
  | update pc b => obtain ⟨-, rfl⟩ := accept_eq_next.1 h; exact doUpdate_moves_one hinv.1 pc b
  | evalSkip => obtain ⟨-, rfl⟩ := accept_eq_next.1 h; exact fun _ => rfl
  | predict pc => obtain ⟨-, rfl⟩ := accept_eq_next.1 h; exact fun _ => rfl
  | reserved => obtain ⟨-, rfl⟩ := accept_eq_next.1 h; exact fun _ => rfl

/-- Settles O53: only EVAL.BCN's next state is a counted one. -/
theorem onlyEvaluationsAreCounted : Obligations.OnlyEvaluationsAreCounted := by
  intro i s t h
  cases i with
  | evalBcn pc npc =>
    obtain ⟨-, rfl⟩ := accept_eq_next.1 h
    exact ⟨count_succ_toNat s.reads, bump_mispredicted_toNat ..⟩
  | evalSkip => obtain ⟨-, rfl⟩ := accept_eq_next.1 h; exact ⟨rfl, rfl⟩
  | predict pc => obtain ⟨-, rfl⟩ := accept_eq_next.1 h; exact ⟨rfl, rfl⟩
  | update pc b => obtain ⟨-, rfl⟩ := accept_eq_next.1 h; exact ⟨rfl, rfl⟩
  | reserved => obtain ⟨-, rfl⟩ := accept_eq_next.1 h; exact ⟨rfl, rfl⟩

/-- Settles O54: the second PREDICT reads the state the first one read. -/
theorem predictTwiceAnswersSame : Obligations.PredictTwiceAnswersSame := by
  intro pc s hs
  refine ⟨_, _, accept_running hs _, accept_running hs _, ?_, ?_⟩
  · rw [respond_answers, respond_answers, List.getLast?_concat, List.getLast?_concat]; rfl
  · rw [respond_answers, respond_answers, List.length_append, List.length_append]; rfl

/-- Settles O55: PREDICT leaves the predictor to UPDATE as it was, and both forms run the same update body. -/
theorem evalIsPredictThenUpdate : Obligations.EvalIsPredictThenUpdate := by
  intro pc npc s hs
  refine ⟨_, _, _, accept_running hs _, accept_running hs _, accept_running hs _, rfl, fun _ => rfl,
    ?prediction, rfl, rfl, rfl, ?misp⟩
  case prediction => rw [respond_last_pred, respond_last_pred]
  case misp =>
    rw [respond_last_pred, respond_misp, countEvent_misp, bump_mispredicted]
    simp only [Option.some.injEq]

end Sys2Proof.Machine
end

section
/-!
What every step keeps, each invariant proved once for a response, and the rules of the whole machine: the statements
of spec/10_state.md, spec/43_eval_and_statistics.md section 3 and spec/20_memory.md R60 on steps.
-/

namespace Sys2Proof.Machine

/-! ### One more response in each reading of the response list -/

section
variable {p : Nat} (rs : List (Rsp p)) (r : Rsp p)

theorem outcomes_append_singleton : outcomes (rs ++ [r]) = outcomes rs ++ if r.trains then [r.taken] else [] := by
  rw [outcomes, outcomes, List.filter_append, List.map_append, List.filter_singleton]
  cases r.trains <;> rfl

/-- A count of responses modulo 2^64 moves as a statistics counter does. -/
theorem ofNat_countP_append_singleton (q : Rsp p → Bool) :
    BitVec.ofNat 64 ((rs ++ [r]).countP q) = bump (BitVec.ofNat 64 (rs.countP q)) (q r) := by
  rw [List.countP_append, List.countP_singleton, bump]
  cases q r
  · rfl
  · exact BitVec.ofNat_add ..

end

theorem replay_append_singleton (c : Cfg) (rs : List (Rsp c.p)) (r : Rsp c.p) :
    replay c (rs ++ [r]) = (replay c rs).replayOne r := by
  rw [replay, replay, List.foldl_append, List.foldl_cons, List.foldl_nil]

/-! ### Each invariant after one more response -/

section
variable {s : State} (r : Rsp s.cfg.p)

/-- The entry a response names is in range, so the PHT keeps its canonical form. -/
theorem inv_answered (h : s.Inv) : (s.answered r).Inv := by
  refine ⟨?_, h.2⟩
  rw [answered_mem]
  split
  · exact write_wf h.1 (entryAddr_lt ..) _
  · exact h.1

theorem statsConsistent_answered (h : s.StatsConsistent) : (s.answered r).StatsConsistent := by
  obtain ⟨hreads, hmisp⟩ := h
  constructor
  · rw [answered_reads, hreads]; exact (ofNat_countP_append_singleton ..).symm
  · rw [answered_misp, hmisp]; exact (ofNat_countP_append_singleton s.rsps r fun q => q.evaluates && q.mis).symm

/-- A training response puts its outcome at bit 0 of GHR and at the end of the outcomes; no other touches either. -/
theorem historyConsistent_answered (h : s.HistoryConsistent) : (s.answered r).HistoryConsistent := by
  intro k hk
  rw [answered_ghr, answered_rsps, outcomes_append_singleton]
  cases hr : r.trains with
  | false => simpa using h k hk
  | true =>
    rw [if_pos rfl, if_pos rfl, ghrShift_getLsbD, decide_eq_true hk, Bool.true_and, List.reverse_append]
    cases k with
    | zero => rfl
    | succ k => simpa using h k (Nat.lt_of_succ_lt hk)

theorem predictor_answered (h : s.predictor = replay s.cfg s.rsps) :
    (s.answered r).predictor = replay s.cfg (s.rsps ++ [r]) := by
  rw [answered_predictor, replay_append_singleton, h]

end

/-- Every evaluated and mispredicted response is an evaluated response, and every evaluated response is a response. -/
theorem misp_le_reads_of_statsConsistent {s : State} (h : s.StatsConsistent) (hlen : s.rsps.length < 2 ^ 64) :
    s.misp.toNat ≤ s.reads.toNat := by
  obtain ⟨hreads, hmisp⟩ := h
  have hle : (s.rsps.countP fun r => r.evaluates && r.mis) ≤ s.rsps.countP Rsp.evaluates :=
    List.countP_mono_left fun r _ hr => (Bool.and_eq_true_iff.1 hr).1
  have hreadsLe : s.rsps.countP Rsp.evaluates ≤ s.rsps.length := List.countP_le_length
  rw [hreads, hmisp, BitVec.toNat_ofNat, BitVec.toNat_ofNat, Nat.mod_eq_of_lt (by omega), Nat.mod_eq_of_lt (by omega)]
  exact hle

theorem inv_resetOf (c : Cfg) : (State.resetOf c).Inv := ⟨reset_mem_wf c _, rfl⟩

theorem statsConsistent_resetOf (c : Cfg) : (State.resetOf c).StatsConsistent := ⟨rfl, rfl⟩

theorem historyConsistent_resetOf (c : Cfg) : (State.resetOf c).HistoryConsistent := fun _ _ => BitVec.getLsbD_zero

/-! ### The invariants -/

/-- Settles O40: the empty PHT is canonical and no abort is pending. -/
theorem resetMeetsInvariant : Obligations.ResetMeetsInvariant := ⟨inv_resetOf, inv_resetOf _⟩

/-- Settles O41: a response writes in range, and the one abort sets FAULT together with code 1. -/
theorem stepKeepsInvariant : Obligations.StepKeepsInvariant := fun _ _ =>
  step_preserves (P := State.Inv) (fun _ _ h => h) (fun s _ => inv_resetOf s.cfg)
    (fun _ _ r h _ => inv_answered r h) (fun _ h => ⟨h.1, rfl⟩)

/-- Settles O42: the configuration is written by no response, no abort and no reset. -/
theorem stepKeepsConfiguration : Obligations.StepKeepsConfiguration := fun s _ =>
  step_preserves (P := fun u => u.cfg = s.cfg) (fun _ _ h => h) (fun _ h => h) (fun _ _ _ h _ => h) (fun _ h => h) rfl

/-- Settles O43: the counters and the counts of responses start at 0 and move together. -/
theorem statisticsCountResponses : Obligations.StatisticsCountResponses :=
  ⟨statsConsistent_resetOf, fun _ _ =>
    step_preserves (P := State.StatsConsistent) (fun _ _ h => h) (fun s _ => statsConsistent_resetOf s.cfg)
      (fun _ _ r h _ => statsConsistent_answered r h) (fun _ h => h)⟩

/-- Settles O44: below 2^64 responses neither counter has wrapped. -/
theorem mispAtMostReads : Obligations.MispAtMostReads := fun s t hs h hlen =>
  misp_le_reads_of_statsConsistent (statisticsCountResponses.2 s t hs h) hlen

/-- Settles O45: GHR and the list of outcomes start empty and shift together. -/
theorem ghrRecordsOutcomes : Obligations.GhrRecordsOutcomes :=
  ⟨historyConsistent_resetOf, fun _ _ =>
    step_preserves (P := State.HistoryConsistent) (fun _ _ h => h) (fun s _ => historyConsistent_resetOf s.cfg)
      (fun _ _ r h _ => historyConsistent_answered r h) (fun _ h => h)⟩

/-- Settles O46: a command moves the predictor and the statistics as replaying its response does. -/
theorem responsesDetermineState : Obligations.ResponsesDetermineState :=
  ⟨fun _ => rfl, fun _ _ =>
    step_preserves (P := fun u => u.predictor = replay u.cfg u.rsps) (fun _ _ h => h) (fun _ _ => rfl)
      (fun _ _ r h _ => predictor_answered r h) (fun _ h => h)⟩

/-- Settles O47: the one new response has its command's shape. -/
theorem responsesKeepTheirShape : Obligations.ResponsesKeepTheirShape := fun _ _ =>
  step_preserves (P := fun u => ∀ r ∈ u.rsps, r.wf) (fun _ _ h => h) (fun _ _ _ hr => nomatch hr)
    (fun _ _ _ h hr => List.forall_mem_append.2 ⟨h, List.forall_mem_singleton.2 (response_op_wf hr).2⟩) (fun _ h => h)

/-! ### Rules of the whole machine -/

/-- Settles O48: the abort returns no response, every other command the one of its op. -/
theorem oneResponsePerCommand : Obligations.OneResponsePerCommand := by
  intro i s t h
  obtain ⟨-, ⟨rfl, rfl⟩ | ⟨r, hr, rfl⟩⟩ := exec_next_answered h
  · exact ⟨fun _ => raiseAbort_answers s _, fun hi => absurd rfl hi⟩
  · refine ⟨fun hi => ?_, fun _ => ⟨r.plain, answered_answers s r, (response_op_wf hr).1⟩⟩
    subst hi; cases hr

/-- Settles O49: neither a response nor a reset sets FAULT; the abort does, for a word with op 3. -/
theorem onlyReservedOpRaisesFault : Obligations.OnlyReservedOpRaisesFault := by
  intro s t h hs ht
  rcases step_next_cases h with ⟨-, rfl⟩ | ⟨rest, -, rfl⟩ | ⟨w, rest, hin, hexec⟩ | ⟨o, rest, -, rfl⟩
  · rw [hs] at ht; cases ht
  · rw [hs] at ht; cases ht
  · obtain ⟨-, ⟨hres, rfl⟩ | ⟨r, -, rfl⟩⟩ := exec_next_answered hexec
    · exact ⟨rfl, w, rest, hin, (op_eq_ofNat_iff w (by omega)).1 ((decode_eq_reserved_iff w).1 hres)⟩
    · rw [answered_fault, hs] at ht; cases ht
  · cases ht

/-- Settles O50: in a faulted state no command is accepted, so a step is an event taken or a reset. -/
theorem faultHoldsUntilReset : Obligations.FaultHoldsUntilReset := by
  intro s t hs h
  rcases step_next_cases h with ⟨-, rfl⟩ | ⟨rest, -, rfl⟩ | ⟨w, rest, -, hexec⟩ | ⟨o, rest, hin, rfl⟩
  · exact .inr rfl
  · exact .inr rfl
  · have hrun : s.fault = false := (exec_next_answered hexec).1
    rw [hs] at hrun; cases hrun
  · exact .inl ⟨o, rest, hin, rfl⟩

/-- A command other than UPDATE and EVAL.BCN leaves GHR and the PHT as they are. -/
theorem exec_keeps_predictor_or_trains {i : Instr} {s t : State} (h : exec i s = .next t) :
    (t.ghr.toNat = s.ghr.toNat ∧ ∀ a, (t.mem.read a).toNat = (s.mem.read a).toNat) ∨
      (∃ pc b, i = .update pc b) ∨ ∃ pc npc, i = .evalBcn pc npc := by
  obtain ⟨-, ⟨pc, npc, hi, -⟩ | ⟨-, rfl⟩ | ⟨pc, -, rfl⟩ | ⟨pc, b, hi, -⟩ | ⟨-, rfl⟩⟩ := exec_next_cases h
  · exact .inr (.inr ⟨pc, npc, hi⟩)
  · exact .inl ⟨rfl, fun _ => rfl⟩
  · exact .inl ⟨rfl, fun _ => rfl⟩
  · exact .inr (.inl ⟨pc, b, hi⟩)
  · exact .inl ⟨rfl, fun _ => rfl⟩

/-- Settles O51: an idle step and a command that does not train change neither. -/
theorem onlyTrainingOrResetChangesPredictor : Obligations.OnlyTrainingOrResetChangesPredictor := by
  intro s t h hchange
  have hkept : ¬ (t.ghr.toNat = s.ghr.toNat ∧ ∀ a, (t.mem.read a).toNat = (s.mem.read a).toNat) := fun hk =>
    hchange.elim (fun hg => hg hk.1) (fun ⟨a, ha⟩ => ha (hk.2 a))
  rcases step_next_cases h with ⟨-, rfl⟩ | ⟨rest, -, rfl⟩ | ⟨w, rest, hin, hexec⟩ | ⟨o, rest, hin, -⟩
  · exact absurd ⟨rfl, fun _ => rfl⟩ hkept
  · exact absurd ⟨rfl, fun _ => rfl⟩ hkept
  · exact .inr ⟨w, rest, hin, (exec_keeps_predictor_or_trains hexec).resolve_left hkept⟩
  · exact .inl ⟨o, rest, hin⟩

end Sys2Proof.Machine
end
